-- ==== Sys2Proof/Word.lean ====
section
/-! DEFINITION. The value types of the block: symbols, histories, positions, command words, bytes (rules R6, R8, R10). -/

namespace Sys2Proof

/-- A signal symbol, `SYM_W = 2` bits: bit 1 is the first half-bit level, bit 0 the second (R8, R57). -/
abbrev Sym := BitVec 2

/-- The input history, `HIST_W = 3` bits: bit 0 is the newest data bit (R23). -/
abbrev Hist := BitVec 3

/-- The position counter: exactly the values 0 to 4, where 4 means "4 or more" (R10 `Pos`, R24, R25). -/
abbrev Pos := Fin 5

/-- A command word, `CMD_W = 2` bits (R50). -/
abbrev CmdWord := BitVec 2

/-- A byte, the carrier in which a command word is written down outside the block (log entry 3). -/
abbrev Byte := BitVec 8

end Sys2Proof
end

