-- ==== Sys2Proof/Config.lean ====
section
/-! DEFINITION. What the spec leaves open: the open parameters of R7 and the register values before the first reset
(R154, U5). Each is opaque: no proof can see its value. No rule of the model reads the parameters of R7. -/

namespace Sys2Proof

/-- The two reset styles of `RESET_STYLE` (R7, R151). -/
inductive ResetStyle where
  | synchronous
  | asynchronous
  deriving DecidableEq, Repr, Inhabited

/-- `RESET_STYLE` (R7): both styles give the same states at step granularity (R151); log entry 8. -/
opaque Config.resetStyle : ResetStyle

/-- `LINE_POLARITY` (R7): whether a symbol bit 1 drives the high electrical level; read by no rule (log entry 8). -/
opaque Config.linePolarity : Bool

/-- `HALF_BIT_RATE` (R7): the rate of a downstream serializer; read by no rule (log entry 8). -/
opaque Config.halfBitRate : Nat

/-- `sym_q` between power-up and the first reset: a free value (R154, U5; log entry 5). -/
opaque Config.powerUpSym : Sym

/-- `hist_q` between power-up and the first reset: a free value (R154, U5; log entry 5). -/
opaque Config.powerUpHist : Hist

/-- `cnt_q` between power-up and the first reset: a free value of the five the counter holds (R154, U5, U6; log
entries 4 and 5). -/
opaque Config.powerUpCnt : Pos

/-- `err_q` between power-up and the first reset: a free code (R154, U5; log entry 5). -/
opaque Config.powerUpErr : BitVec 2

/-- `sym_valid_q` between power-up and the first reset: a free value (R154, U5; log entry 5). -/
opaque Config.powerUpSymValid : Bool

end Sys2Proof
end

