-- ==== Sys2Proof/Machine/State.lean ====
section
/-! DEFINITION. The state of the block: its five registers (R21), and the input cycles the host is yet to present. -/

namespace Sys2Proof.Machine

/-- The four codes of the error register and port `err` (R10, R56). -/
inductive ErrCode where
  /-- `0b00` NONE: the run has had no error. -/
  | none
  /-- `0b01` INVALID_INPUT: the run received BAD. -/
  | invalidInput
  /-- `0b10` INVALID_STATE: never written (R132). -/
  | invalidState
  /-- `0b11` reserved: never written (R56). -/
  | reserved
  deriving DecidableEq, Repr

/-- The input ports in one clock cycle (R34). -/
structure PortIn where
  /-- `rst`, active high. -/
  rst : Bool
  /-- `cmd_valid`: a command is presented this cycle. -/
  cmdValid : Bool
  /-- `cmd`: ignored when `cmd_valid = 0`. -/
  cmd : CmdWord
  deriving DecidableEq, Repr

/-- The state tuple of R21, and the model's own `inputs`. -/
structure State where
  /-- `sym_q`: the last symbol emitted in the run (R22). -/
  symQ : Sym
  /-- `hist_q`: the last three data bits, bit 0 the newest (R23). -/
  histQ : Hist
  /-- `cnt_q`: the data bits consumed in the run, saturating at 4 (R24). -/
  cntQ : Pos
  /-- `err_q`: the run's error code (R26). -/
  errQ : ErrCode
  /-- `sym_valid_q`: the last step emitted a symbol (R27). -/
  symValidQ : Bool
  /-- MODEL'S OWN: the port values of the coming cycles, nearest first; none listed means none presented (log entry 1). -/
  inputs : List PortIn
  deriving DecidableEq, Repr

/-- The block right after reset (R36, R150); no input cycle is listed (log entry 1). -/
def State.reset : State where
  symQ := 0b00#2
  histQ := 0b000#3
  cntQ := 0
  errQ := .none
  symValidQ := false
  inputs := []

/-- Reasons a step could fault. -/
inductive Fault where
  /-- InvalidState (R130): raised by NOTHING, because the 2-bit symbol register has no non-canonical value (R83, R132);
  safe (log entry 10). -/
  | invalidState
  deriving DecidableEq, Repr

/-- Reasons a command could be refused. -/
inductive Refusal where
  /-- The command has no meaning in the model: raised by no arm of `exec`; safe. -/
  | notModelled (mnemonic : String)
  deriving DecidableEq, Repr

end Sys2Proof.Machine
end

