-- ==== Sys2Proof/Machine/Flags.lean ====
section
/-! DEFINITION. The fault flag (R29), the error codes as bits (R56), and the output ports (R34, R35). -/

namespace Sys2Proof.Machine

/-- `fault = (err_q != NONE)`, the failed-run flag (R29). -/
def State.fault (s : State) : Bool := decide (s.errQ ≠ .none)

/-- The two bits of an error code (R56). -/
def ErrCode.code : ErrCode → BitVec 2
  | .none => 0b00#2
  | .invalidInput => 0b01#2
  | .invalidState => 0b10#2
  | .reserved => 0b11#2

/-- The code an error register's two bits hold (R56). -/
def ErrCode.ofCode (w : BitVec 2) : ErrCode :=
  if w = 0b00#2 then .none
  else if w = 0b01#2 then .invalidInput
  else if w = 0b10#2 then .invalidState
  else .reserved

/-- The position counter as the 3-bit register it is held in (R24). -/
def State.cntBits (s : State) : BitVec 3 := BitVec.ofNat 3 s.cntQ.val

/-- The output ports in one clock cycle (R34). -/
structure PortOut where
  /-- `sym`. -/
  sym : Sym
  /-- `sym_valid`. -/
  symValid : Bool
  /-- `err`. -/
  err : BitVec 2
  deriving DecidableEq, Repr

/-- What the block shows on its output ports (R34). -/
def State.ports (s : State) : PortOut where
  sym := s.symQ
  symValid := s.symValidQ
  err := s.errQ.code

/-- What a host that samples the ports reads: a newly emitted symbol, or none (R35, R155). -/
def PortOut.sample (o : PortOut) : Option Sym := if o.symValid then some o.sym else none

/-- The output event of the step that led to this state (R35). -/
def State.output (s : State) : Option Sym := s.ports.sample

end Sys2Proof.Machine
end

