-- ==== Sys2Proof/Machine/Transition.lean ====
section
/-! DEFINITION. The combinational functions of the data commands: next symbol, history, counter (R70 to R77). -/

namespace Sys2Proof.Machine

/-- `FIRST_SYM`: the symbol of position 0 (R6, R71). -/
def firstSym (b : Bool) : Sym := if b then 0b11#2 else 0b00#2

/-- The lookback predicate: position at least 4, and the three preceding data bits 1, 0, 1 (R74). -/
def lb (hist : Hist) (cnt : Pos) : Bool :=
  decide (cnt = 4) && (hist.getLsbD 0 && !hist.getLsbD 1 && hist.getLsbD 2)

/-- The bit-1 table, on the previous symbol (R72). -/
def nsymOne (sym : Sym) : Sym :=
  if sym = 0b00#2 then 0b01#2
  else if sym = 0b11#2 then 0b10#2
  else if sym = 0b01#2 then 0b10#2
  else 0b01#2

/-- The bit-0 rule on the previous symbol and the lookback, in the document's order of evaluation (R73, R75; log entry
6). The last arm is the previous symbol `10`: a 2-bit symbol has no fifth value (R83). -/
def nsymZero (sym : Sym) (look : Bool) : Sym :=
  if sym = 0b00#2 ∨ look = true then 0b11#2
  else if sym = 0b11#2 then 0b00#2
  else if sym = 0b01#2 then 0b11#2
  else 0b00#2

/-- The next-symbol function in full (R70, R75). -/
def nsym (sym : Sym) (hist : Hist) (cnt : Pos) (b : Bool) : Sym :=
  if cnt = 0 then firstSym b
  else if b then nsymOne sym
  else nsymZero sym (lb hist cnt)

/-- The naive previous-symbol-only rule: `nsym` with the lookback never holding (R79, R120). -/
def naiveNsym (sym : Sym) (cnt : Pos) (b : Bool) : Sym :=
  if cnt = 0 then firstSym b
  else if b then nsymOne sym
  else nsymZero sym false

/-- The history update `(hist[1:0], b)` (R76). -/
def nhist (hist : Hist) (b : Bool) : Hist := hist.extractLsb' 0 2 ++ BitVec.ofBool b

/-- The counter update `min(cnt + 1, 4)` (R77). -/
def ncnt (cnt : Pos) : Pos := ⟨min (cnt.val + 1) 4, by omega⟩

end Sys2Proof.Machine
end

