-- ==== Sys2Proof/Machine/Ops.lean ====
section
/-! DEFINITION. The named register operations the steps share: emitting a symbol, emitting none, consuming a data bit,
beginning a run, entering the failed-run state. All right-hand sides read the registers before the step (R9). -/

namespace Sys2Proof.Machine

/-- `emit(s)` (R35). -/
def emit (sym : Sym) (s : State) : State := { s with symQ := sym, symValidQ := true }

/-- A step that does not emit writes `sym_valid_q <- 0` (R35). -/
def emitNone (s : State) : State := { s with symValidQ := false }

/-- Shift a data bit into the history and count it (R76, R77). -/
def consumeBit (b : Bool) (s : State) : State := { s with histQ := nhist s.histQ b, cntQ := ncnt s.cntQ }

/-- Every register to its value at the start of a run: START and reset (R36, R100, R150). It is also the one way out of
the failed-run state (R135). -/
def beginRun (s : State) : State :=
  { s with symQ := 0b00#2, histQ := 0b000#3, cntQ := 0, errQ := .none, symValidQ := false }

/-- `raise InvalidInput()`: entry into the failed-run state, the block's whole "trap entry" (R9, R131, R133). -/
def raiseInvalidInput (s : State) : State := emitNone { s with errQ := .invalidInput }

/-- The block between power-up and its first reset: every register holds an unknown value (R154, U5; log entry 5). -/
def State.powerUp : State where
  symQ := Config.powerUpSym
  histQ := Config.powerUpHist
  cntQ := Config.powerUpCnt
  errQ := ErrCode.ofCode Config.powerUpErr
  symValidQ := Config.powerUpSymValid
  inputs := []

end Sys2Proof.Machine
end

