-- ==== Sys2Proof/Machine/Control.lean ====
section
/-! DEFINITION. The control commands START and BAD (R100, R101), the idle step (R102) and the reset step (R150). -/

namespace Sys2Proof.Machine

/-- `BAD`: fail a good run with InvalidInput; a failed run stays as it is (R101, R137). -/
def execBad (s : State) : Host.Outcome State Fault Refusal :=
  if s.errQ = .none then .next (raiseInvalidInput s) else .next (emitNone s)

/-- `START`: begin a new run, from any state (R100). -/
def execStart (s : State) : Host.Outcome State Fault Refusal := .next (beginRun s)

/-- The idle step: only `sym_valid_q` falls (R102). -/
def idleStep (s : State) : Host.Outcome State Fault Refusal := .next (emitNone s)

/-- The reset step, whatever the command inputs (R150, R152). -/
def resetStep (s : State) : Host.Outcome State Fault Refusal := .next (beginRun s)

end Sys2Proof.Machine
end

