-- ==== Sys2Proof/Machine/Data.lean ====
section
/-! DEFINITION. The data commands D0 and D1 (R90 to R92). -/

namespace Sys2Proof.Machine

/-- `DATA(b)`, the step D0 and D1 share (R90). -/
def dataStep (b : Bool) (s : State) : Host.Outcome State Fault Refusal :=
  if s.fault then .next (emitNone s)
  else .next (emit (nsym s.symQ s.histQ s.cntQ b) (consumeBit b s))

/-- `D0`: consume input bit 0 (R91). -/
def execD0 (s : State) : Host.Outcome State Fault Refusal := dataStep false s

/-- `D1`: consume input bit 1 (R92). -/
def execD1 (s : State) : Host.Outcome State Fault Refusal := dataStep true s

end Sys2Proof.Machine
end

