-- ==== Sys2Proof/Syntax.lean ====
section
/-! DEFINITION. The commands of the block, one constructor per row of the command map (R52, opcode table). -/

namespace Sys2Proof

/-- The four commands (R52). IDLE is no command but a cycle that presents none (R54, R102). -/
inductive Instr where
  /-- `D0`: consume input bit 0 (R91). -/
  | d0
  /-- `D1`: consume input bit 1 (R92). -/
  | d1
  /-- `BAD`: the input held a character other than '0' or '1' (R101). -/
  | bad
  /-- `START`: begin a new run (R100). -/
  | start
  deriving DecidableEq, Repr

end Sys2Proof
end

