-- ==== Sys2Proof/Machine/Dispatch.lean ====
section
/-! DEFINITION. The dispatch of the commands to their meanings (R103). -/

namespace Sys2Proof.Machine

def exec (i : Instr) (s : State) : Host.Outcome State Fault Refusal :=
  match i with
  | .d0 => Sys2Proof.Machine.execD0 s
  | .d1 => Sys2Proof.Machine.execD1 s
  | .bad => Sys2Proof.Machine.execBad s
  | .start => Sys2Proof.Machine.execStart s

end Sys2Proof.Machine
end

