-- ==== Sys2Proof/WellFormed.lean ====
section
/-! DEFINITION. Which terms are well formed: every command (none has an operand to check, R53, R54), the bytes that carry
a command word, and the strings `BITS` takes (R60). -/

namespace Sys2Proof

/-- No command has an operand field, and no code is reserved, so every command is well formed (R53, R54). -/
def Instr.wellFormed : Instr → Bool
  | .d0 => true
  | .d1 => true
  | .bad => true
  | .start => true

/-- A byte carries a command word when its six high bits are zero (log entry 3). -/
def isCommandByte (b : Byte) : Bool := b.toNat < 4

/-- A character of a binary string (R60, R112). -/
def isBinaryChar (c : Char) : Bool := c == '0' || c == '1'

/-- A string over '0' and '1' (R60, R111). -/
def isBinary (text : List Char) : Bool := text.all isBinaryChar

end Sys2Proof
end

