-- ==== Sys2Proof/Decode.lean ====
section
/-! DEFINITION. The command decoder and encoder (R50 to R55), and the byte carrier of the opcode table's words. -/

namespace Sys2Proof

/-- The class field `c = cmd[1]`: false for a data command, true for a control command (R51). -/
def cmdClass (w : CmdWord) : Bool := w.getLsbD 1

/-- The field `b = cmd[0]`: the data bit, or the selector of a control command (R51). -/
def cmdBit (w : CmdWord) : Bool := w.getLsbD 0

/-- The decoder, total over the four words (R52, R55). -/
def decode (w : CmdWord) : Instr :=
  match cmdClass w, cmdBit w with
  | false, false => .d0
  | false, true => .d1
  | true, false => .bad
  | true, true => .start

/-- The command word of a command, from the command map (R52). -/
def encode : Instr → CmdWord
  | .d0 => 0b00#2
  | .d1 => 0b01#2
  | .bad => 0b10#2
  | .start => 0b11#2

/-- Why bytes are no command: both are the carrier's, since no command word is illegal (R54; log entry 3). -/
inductive DecodeError where
  /-- There is no byte to read. Safe: nothing is decoded. -/
  | noByte
  /-- One of the six bits above the command word is set. Safe: nothing is decoded. -/
  | highBitsSet
  deriving DecidableEq, Repr

/-- The command in the first byte, and the bytes after it (log entry 3). -/
def decodeBytes : List Byte → Except DecodeError (Instr × List Byte)
  | [] => .error .noByte
  | b :: rest => if isCommandByte b then .ok (decode (b.setWidth 2), rest) else .error .highBitsSet

/-- The byte that carries a command (log entry 3). -/
def encodeByte (i : Instr) : Byte := (encode i).setWidth 8

/-- Every command of a byte sequence, refused at the first byte that carries none. -/
def decodeStream : List Byte → Except DecodeError (List Instr)
  | [] => .ok []
  | b :: rest =>
    match decodeBytes [b], decodeStream rest with
    | .ok (i, _), .ok is => .ok (i :: is)
    | .error e, _ => .error e
    | .ok _, .error e => .error e

/-- A word of `nbits` bits as bytes, the low byte first. -/
def tableBytes (nbits w : Nat) : List Byte :=
  (List.range ((nbits + 7) / 8)).map fun k => BitVec.ofNat 8 (w / 256 ^ k)

/-- The command the decoder reads from an opcode-table word (log entry 3). -/
def decodeTableWord (nbits w : Nat) : Option Instr :=
  match decodeBytes (tableBytes nbits w) with
  | .ok (i, _) => some i
  | .error _ => none

end Sys2Proof
end

