-- ==== Sys2Proof/Machine/Operands.lean ====
section
/-! DEFINITION. The one operand form of the block: the data bit of a data command (R53). -/

namespace Sys2Proof.Machine

/-- The data bit of D0 and D1; control commands have no operand (R53). -/
def dataBit : Instr → Option Bool
  | .d0 => some false
  | .d1 => some true
  | .bad => none
  | .start => none

end Sys2Proof.Machine
end

