-- ==== Sys2Proof/Machine/Cycle.lean ====
section
/-! DEFINITION. One clock cycle of the block on given input-port values (R103), and where the next values come from
(log entry 1). -/

namespace Sys2Proof.Machine

/-- A cycle that presents nothing; its `cmd` is ignored (R54, R102). -/
def idleInput : PortIn := ⟨false, false, 0b00#2⟩

/-- A cycle that presents a command (R34, R50). -/
def commandInput (i : Instr) : PortIn := ⟨false, true, encode i⟩

/-- A cycle with `rst = 1`; its command is dropped (R150, R152). -/
def resetInput : PortIn := ⟨true, false, 0b00#2⟩

/-- The port values of the coming cycle: the first listed, or nothing presented (log entry 1). -/
def nextInput (s : State) : PortIn := s.inputs.headD idleInput

/-- The state with the coming cycle's port values taken off the list (log entry 1). -/
def takeInput (s : State) : State := { s with inputs := s.inputs.tail }

/-- The step function of R103 on the inputs of one cycle, in its priority order: reset, idle, command. -/
def cycle (p : PortIn) (s : State) : Host.Outcome State Fault Refusal :=
  if p.rst then resetStep s
  else if p.cmdValid then exec (decode p.cmd) s
  else idleStep s

/-- The command a cycle performs, if it performs one (R103). -/
def PortIn.command (p : PortIn) : Option Instr :=
  if p.rst then none else if p.cmdValid then some (decode p.cmd) else none

/-- The cycle begins a new run: reset or START (R110). -/
def PortIn.beginsRun (p : PortIn) : Bool := p.rst || decide (p.command = some .start)

/-- The data bit of a D0 or D1 the cycle performs (R53, R103). -/
def PortIn.dataBit (p : PortIn) : Option Bool := p.command.bind Machine.dataBit

/-- What the pseudocode of the cycle's step returns: the symbol it emits, or none (R10, R90, R100 to R103). -/
def returned (p : PortIn) (s : State) : Option Sym :=
  match p.dataBit with
  | some b => if s.fault then none else some (nsym s.symQ s.histQ s.cntQ b)
  | none => none

end Sys2Proof.Machine
end

