-- ==== Sys2Proof/Machine/Step.lean ====
section
/-! DEFINITION. The step of the machine: one clock cycle on the next input-port values (R103). -/

namespace Sys2Proof.Machine

/-- One step: perform the cycle whose inputs come next (R103; log entry 1). It never faults and never refuses. -/
def step (s : State) : Host.Outcome State Fault Refusal := cycle (nextInput s) (takeInput s)

/-- `s` with the opcode-table word presented in the very next cycle; a word that is no command word presents nothing
(log entry 2). -/
def State.withFetchWord (s : State) (nbits w : Nat) : State :=
  match decodeTableWord nbits w with
  | some _ => { s with inputs := ⟨false, true, BitVec.ofNat 2 w⟩ :: s.inputs }
  | none => { s with inputs := idleInput :: s.inputs }

end Sys2Proof.Machine
end

