-- ==== Sys2Proof/Machine/Call.lean ====
section
/-! DEFINITION. The call level: the reference function `encode` of the document (R111), the host's character mapping
(R112), the text form of a result (R58, R115), and the two sequences of the visualization (R118). A string is its list of
characters (log entry 11). -/

namespace Sys2Proof.Machine

/-- The two error kinds of a call (R130). -/
inductive CallError where
  | invalidInput
  | invalidState
  deriving DecidableEq, Repr

/-- What a call of `encode` returns (R111). -/
inductive CallResult where
  | ok (out : List Sym)
  | error (e : CallError)
  deriving DecidableEq, Repr

/-- Whether the character at a position is '1' (R111). -/
def bitAt (text : List Char) (i : Nat) : Bool := text[i]? == some '1'

/-- The symbol at a position of an output; `00` past its end, which no use reads (R11). -/
def symAt (out : List Sym) (i : Nat) : Sym := out[i]?.getD 0b00#2

/-- The lookback condition of R111, with its first position as a parameter: the document's is 4. -/
def lookbackAt (minPos : Nat) (text : List Char) (i : Nat) : Bool :=
  decide (minPos ≤ i) && (text[i - 1]? == some '1' && text[i - 2]? == some '0' && text[i - 3]? == some '1')

/-- The body of R111's loop at position `i`, after the symbols `out`; `none` is its InvalidState branch. -/
def refSymbol (minPos : Nat) (text : List Char) (i : Nat) (out : List Sym) : Option Sym :=
  if i = 0 then some (if bitAt text i then 0b11#2 else 0b00#2)
  else if bitAt text i then
    if symAt out (i - 1) = 0b00#2 then some 0b01#2
    else if symAt out (i - 1) = 0b11#2 then some 0b10#2
    else if symAt out (i - 1) = 0b01#2 then some 0b10#2
    else if symAt out (i - 1) = 0b10#2 then some 0b01#2
    else none
  else if symAt out (i - 1) = 0b00#2 ∨ lookbackAt minPos text i = true then some 0b11#2
  else if symAt out (i - 1) = 0b11#2 then some 0b00#2
  else if symAt out (i - 1) = 0b01#2 then some 0b11#2
  else if symAt out (i - 1) = 0b10#2 then some 0b00#2
  else none

/-- The symbols of the first `n` positions: R111's loop run `n` times. -/
def refOutput (minPos : Nat) (text : List Char) : Nat → Option (List Sym)
  | 0 => some []
  | n + 1 =>
    match refOutput minPos text n with
    | some out => (refSymbol minPos text n out).map fun o => out ++ [o]
    | none => none

/-- `encode` with the lookback's first position as a parameter: the what-if of R81. -/
def encodeCallFrom (minPos : Nat) (text : List Char) : CallResult :=
  if isBinary text then
    match refOutput minPos text text.length with
    | some out => .ok out
    | none => .error .invalidState
  else .error .invalidInput

/-- The reference function `encode(s)` (R111), with `LB_MIN_POS = 4` (R6). -/
def encodeCall (text : List Char) : CallResult := encodeCallFrom 4 text

/-- The host's character mapping (R112). -/
def charCommand (c : Char) : Instr := if c = '0' then .d0 else if c = '1' then .d1 else .bad

/-- The commands of one call: START, then one command a character (R61, R113). -/
def callCommands (text : List Char) : List Instr := .start :: text.map charCommand

/-- The character of a half-bit level or a bit (R58). -/
def levelChar (level : Bool) : Char := if level then '1' else '0'

/-- The two characters of a symbol, the first half-bit first (R58). -/
def symText (sym : Sym) : List Char := [levelChar (sym.getLsbD 1), levelChar (sym.getLsbD 0)]

/-- A symbol list as text, joined with single spaces (R115). -/
def renderOutput : List Sym → List Char
  | [] => []
  | [x] => symText x
  | x :: y :: rest => symText x ++ ' ' :: renderOutput (y :: rest)

/-- The level sequence: each symbol split into its two levels (R118). -/
def levels (out : List Sym) : List Bool := out.flatMap fun x => [x.getLsbD 1, x.getLsbD 0]

/-- The bit sequence with each bit repeated twice (R118). -/
def doubledBits (text : List Char) : List Bool := text.flatMap fun c => [c == '1', c == '1']

end Sys2Proof.Machine
end

