-- ==== Sys2Proof/Machine/Run.lean ====
section
/-! DEFINITION. Many cycles: the block driven by a list of input cycles, what the host samples, and the results of runs
(R46, R110, R127, R128). -/

namespace Sys2Proof.Machine

/-- Drive the block through input cycles in order: the state it ends in, and its output ports after each cycle (R44,
R46). -/
def play : List PortIn → State → Host.Outcome (State × List PortOut) Fault Refusal
  | [], s => .next (s, [])
  | p :: ps, s =>
    match cycle p s with
    | .next t =>
      match play ps t with
      | .next (u, outs) => .next (u, t.ports :: outs)
      | .fault r => .fault r
      | .refused r => .refused r
    | .fault r => .fault r
    | .refused r => .refused r

/-- The symbols a host reads that samples `sym` in every cycle with `sym_valid = 1` (R127, R155). -/
def sampled (outs : List PortOut) : List Sym := outs.filterMap PortOut.sample

/-- The result of a run from the error port at its end and the symbols it emitted (R128); any code but NONE is a failed
run, whose symbols are discarded (R132, R136). -/
def readResult (err : BitVec 2) (out : List Sym) : CallResult :=
  if err = ErrCode.none.code then .ok out else .error .invalidInput

/-- The results of the runs of an input stream, one for each run, the run in progress first (R110, R128): `out` is what
that run has emitted so far. -/
def runResults : List PortIn → State → List Sym → Host.Outcome (List CallResult) Fault Refusal
  | [], s, out => .next [readResult s.ports.err out]
  | p :: ps, s, out =>
    match cycle p s with
    | .next t =>
      if p.beginsRun then
        match runResults ps t [] with
        | .next rs => .next (readResult s.ports.err out :: rs)
        | .fault r => .fault r
        | .refused r => .refused r
      else runResults ps t (out ++ t.output.toList)
    | .fault r => .fault r
    | .refused r => .refused r

/-- The input cycles of one call presented without idle cycles (R113, R154). -/
def callInputs (text : List Char) : List PortIn := (callCommands text).map commandInput

/-- The cycles present these commands in order, with any number of idle cycles between and around them, and no reset
(R113). -/
def Presents (ps : List PortIn) (cmds : List Instr) : Prop :=
  (∀ p ∈ ps, p.rst = false) ∧ ps.filterMap PortIn.command = cmds

end Sys2Proof.Machine
end

