-- ==== Sys2Proof/Machine/Asm.lean ====
section
/-! DEFINITION. The assembly notation of command programs (R59 to R61), over lists of characters. What R59 leaves open of
the text is log entry 12. -/

namespace Sys2Proof.Machine

/-- What one line may say (R59 to R61). -/
inductive AsmItem where
  /-- A command's mnemonic (R52, R59). -/
  | command (i : Instr)
  /-- `IDLE`, one cycle with `cmd_valid = 0` (R59). -/
  | idle
  /-- The pseudo-instruction `BITS` (R60). -/
  | bits (text : List Char)
  /-- The pseudo-instruction `ENCODE` (R61). -/
  | encodeText (text : List Char)
  deriving DecidableEq, Repr

/-- Why a line is no program line. Each is safe: nothing is assembled. -/
inductive AsmError where
  /-- The line's first word is no mnemonic (R59). -/
  | unknownMnemonic
  /-- The string of a pseudo-instruction has no opening or no closing quote. -/
  | badString
  /-- Something other than a comment follows the operand or mnemonic (R59). -/
  | trailingText
  /-- `BITS` of a string with a non-binary character (R60). -/
  | notBinary
  deriving DecidableEq, Repr

/-- The one check on a line's meaning: `BITS` takes a binary string (R60). -/
def AsmItem.wellFormed : AsmItem → Bool
  | .command i => i.wellFormed
  | .idle => true
  | .bits text => isBinary text
  | .encodeText _ => true

/-- The input cycles a line stands for (R59, R60, R61). -/
def AsmItem.expand : AsmItem → Except AsmError (List PortIn)
  | .command i => .ok [commandInput i]
  | .idle => .ok [idleInput]
  | .bits text => if isBinary text then .ok (text.map fun c => commandInput (charCommand c)) else .error .notBinary
  | .encodeText text => .ok (callInputs text)

/-- A mnemonic (R52, R59). -/
def mnemonicText : Instr → List Char
  | .d0 => ['D', '0']
  | .d1 => ['D', '1']
  | .bad => ['B', 'A', 'D']
  | .start => ['S', 'T', 'A', 'R', 'T']

/-- The mnemonic of an idle cycle (R59). -/
def idleText : List Char := ['I', 'D', 'L', 'E']

/-- The double quote around a string operand. -/
def quoteChar : Char := Char.ofNat 34

/-- A character that may stand between the parts of a line (log entry 12). -/
def isBlank (c : Char) : Bool := c == ' ' || c == Char.ofNat 9

/-- A character a mnemonic is written with (R59). -/
def isMnemonicChar (c : Char) : Bool := c.isUpper || c.isDigit

/-- The end of a line: blanks, then nothing or a comment (R59). -/
def isLineEnd (rest : List Char) : Bool :=
  match rest.dropWhile isBlank with
  | [] => true
  | c :: _ => c == ';'

/-- A quoted string operand and what follows it (log entry 12). -/
def readString (rest : List Char) : Except AsmError (List Char × List Char) :=
  match rest.dropWhile isBlank with
  | [] => .error .badString
  | q :: body =>
    if q = quoteChar then
      match body.dropWhile (· ≠ quoteChar) with
      | [] => .error .badString
      | _ :: after => .ok (body.takeWhile (· ≠ quoteChar), after)
    else .error .badString

/-- A whole line's item, refused if anything but a comment follows it (R59). -/
def closeLine (item : AsmItem) (rest : List Char) : Except AsmError AsmItem :=
  if isLineEnd rest then .ok item else .error .trailingText

/-- One line of a program (R59, R60, R61). -/
def parseLine (line : List Char) : Except AsmError AsmItem :=
  let body := line.dropWhile isBlank
  let word := body.takeWhile isMnemonicChar
  let rest := body.dropWhile isMnemonicChar
  if word = mnemonicText .d0 then closeLine (.command .d0) rest
  else if word = mnemonicText .d1 then closeLine (.command .d1) rest
  else if word = mnemonicText .bad then closeLine (.command .bad) rest
  else if word = mnemonicText .start then closeLine (.command .start) rest
  else if word = idleText then closeLine .idle rest
  else if word = ['B', 'I', 'T', 'S'] then
    match readString rest with
    | .ok (text, after) => closeLine (.bits text) after
    | .error e => .error e
  else if word = ['E', 'N', 'C', 'O', 'D', 'E'] then
    match readString rest with
    | .ok (text, after) => closeLine (.encodeText text) after
    | .error e => .error e
  else .error .unknownMnemonic

/-- The input cycles of a program, line by line; the first bad line refuses it (R59). -/
def assemble : List (List Char) → Except AsmError (List PortIn)
  | [] => .ok []
  | line :: lines =>
    match parseLine line with
    | .error e => .error e
    | .ok item =>
      match item.expand with
      | .error e => .error e
      | .ok ps =>
        match assemble lines with
        | .error e => .error e
        | .ok rest => .ok (ps ++ rest)

/-- The code of a cycle in a program's listing: the command word in binary, or `--` (R59). -/
def listingCode (p : PortIn) : List Char := if p.cmdValid then symText p.cmd else ['-', '-']

/-- The line of one cycle: a command's mnemonic, or `IDLE` (R59). -/
def slotLine : Option Instr → List Char
  | some i => mnemonicText i
  | none => idleText

/-- The input cycle of one line written by `slotLine` (R59). -/
def slotInput : Option Instr → PortIn
  | some i => commandInput i
  | none => idleInput

end Sys2Proof.Machine
end

