-- ==== Sys2Proof/Safety.lean ====
section
/-! DEFINITION. What holds in the states a run reaches, in the terms the statements use: the register invariants (R22,
R23, R32, R80), and the relation between the registers and the run's data bits and symbols (R23, R24, R32, R110). -/

namespace Sys2Proof.Machine

/-- The relations between the registers that hold in every reachable state (R32, with R22, R23 and R80 spelt out):
history bits of positions that do not exist are 0; the symbol register fits the position and the newest bit; the error
code is NONE or INVALID_INPUT; a valid symbol belongs to a good run that has consumed a bit. -/
structure State.Inv (s : State) : Prop where
  fresh : s.cntQ = 0 → s.symQ = 0b00#2 ∧ s.histQ = 0b000#3
  first : s.cntQ = 1 → s.symQ = firstSym (s.histQ.getLsbD 0)
  later : 2 ≤ s.cntQ.val →
    if s.histQ.getLsbD 0 then s.symQ = 0b01#2 ∨ s.symQ = 0b10#2 else s.symQ = 0b00#2 ∨ s.symQ = 0b11#2
  unseen : ∀ k, s.cntQ.val ≤ k → s.histQ.getLsbD k = false
  err : s.errQ = .none ∨ s.errQ = .invalidInput
  valid : s.symValidQ = true → s.errQ = .none ∧ s.cntQ ≠ 0

/-- The view a host has of the run in progress: its data bits, and the symbols sampled from the ports (R110). -/
structure RunView where
  bits : List Bool
  out : List Sym
  deriving DecidableEq, Repr

/-- The view of a run that has just begun. -/
def RunView.empty : RunView := ⟨[], []⟩

/-- The view after a cycle with inputs `p` that led from `s` to `t`: a new run is empty; a data command accepted while
`err_q = NONE` adds its bit (R110); a symbol shown on the ports is added. -/
def RunView.after (p : PortIn) (s t : State) (v : RunView) : RunView :=
  if p.beginsRun then .empty
  else ⟨v.bits ++ (if s.fault then [] else p.dataBit.toList), v.out ++ t.output.toList⟩

/-- The registers hold what R22, R23, R24, R26 and R32 say of a run with these data bits and symbols, and the symbols are
the reference encoding of the bits (R111, R113). -/
structure State.Tracks (s : State) (v : RunView) : Prop where
  cnt : s.cntQ.val = min v.bits.length 4
  hist : ∀ k, k < 3 → s.histQ.getLsbD k = v.bits.reverse.getD k false
  sym : s.symQ = v.out.getLastD 0b00#2
  encoded : encodeCall (v.bits.map levelChar) = .ok v.out
  err : s.errQ = .none ∨ s.errQ = .invalidInput
  failed : s.errQ = .invalidInput → s.symValidQ = false

/-- The levels from index `a` up to but not including `b` are a maximal stretch of equal levels that is neither the first
nor the last of the sequence (R126). -/
def InteriorStretch (l : List Bool) (a b : Nat) : Prop :=
  0 < a ∧ a < b ∧ b < l.length ∧ (∀ j, a ≤ j → j < b → l.getD j false = l.getD a false) ∧
  l.getD (a - 1) false ≠ l.getD a false ∧ l.getD b false ≠ l.getD a false

end Sys2Proof.Machine
end

