-- ==== Sys2Proof/Certificates/Slice0/Obligations.lean ====
section
/-! DEFINITION. The statements about the block, from the spec's numbered rules. An [R<n>] in a docstring is the rule a
statement formalises; "derived" says that the spec itself marks it as an inference, or that it rests on a log entry. Where
a next state is written out whole, it also says that the coming inputs are unchanged: that field is the model's choice
(DESIGN CHOICE, log entry 1), and no rule is cited for it. -/

open Sys2Proof Sys2Proof.Machine

/-- [R52] The command map: all four codes and their commands. -/
def Obligations.CommandMapDecodes : Prop :=
  decode 0b00#2 = .d0 ∧ decode 0b01#2 = .d1 ∧ decode 0b10#2 = .bad ∧ decode 0b11#2 = .start

/-- [R51, R53] Bit 1 selects the class; in a data command bit 0 is the data bit, the only operand; in a control command
it selects BAD or START, and there is no operand. -/
def Obligations.FieldsSelectCommand : Prop :=
  ∀ w : CmdWord,
    (w.getLsbD 1 = false → dataBit (decode w) = some (w.getLsbD 0)) ∧
    (w.getLsbD 1 = true → dataBit (decode w) = none ∧ decode w = if w.getLsbD 0 then .start else .bad)

/-- Derived (R52, R54): encoding and decoding are inverse in both directions, for every command and every word. -/
def Obligations.DecodeInvertsEncode : Prop :=
  (∀ i : Instr, i.wellFormed = true → decode (encode i) = i) ∧ (∀ w : CmdWord, encode (decode w) = w)

/-- Derived, on the model's byte carrier (log entry 3): a sequence of command bytes decodes back to its commands,
whatever its length, and a byte with a high bit set anywhere after them is refused by name. -/
def Obligations.ByteStreamDecodesBack : Prop :=
  ∀ is : List Instr, decodeStream (is.map encodeByte) = .ok is ∧
    ∀ (b : Byte) (rest : List Byte), 4 ≤ b.toNat →
      decodeStream (is.map encodeByte ++ b :: rest) = .error .highBitsSet

/-- [R71] Position 0: the first data bit determines the symbol; previous symbol and history are not read. -/
def Obligations.InitialSymbol : Prop :=
  ∀ (x : Sym) (h : Hist), nsym x h 0 false = 0b00#2 ∧ nsym x h 0 true = 0b11#2

/-- [R72] The bit-1 table, whatever the history and the position beyond 0. -/
def Obligations.BitOneTable : Prop :=
  ∀ (h : Hist) (c : Pos), c ≠ 0 →
    nsym 0b00#2 h c true = 0b01#2 ∧ nsym 0b11#2 h c true = 0b10#2 ∧
    nsym 0b01#2 h c true = 0b10#2 ∧ nsym 0b10#2 h c true = 0b01#2

/-- Derived (R73, R75; log entry 6 for previous symbol 11 with the lookback): the bit-0 rule in the document's order of
evaluation, the lookback tested first. -/
def Obligations.BitZeroRule : Prop :=
  ∀ (h : Hist) (c : Pos), c ≠ 0 →
    (∀ x, lb h c = true → nsym x h c false = 0b11#2) ∧
    (lb h c = false → nsym 0b00#2 h c false = 0b11#2 ∧ nsym 0b11#2 h c false = 0b00#2 ∧
      nsym 0b01#2 h c false = 0b11#2 ∧ nsym 0b10#2 h c false = 0b00#2)

/-- [R74] The lookback predicate in both register forms; only the bit-0 rule, and only at position 4 or more, reads the
history. -/
def Obligations.LookbackPredicate : Prop :=
  (∀ (h : Hist) (c : Pos),
    (lb h c = true ↔ c = 4 ∧ h.getLsbD 0 = true ∧ h.getLsbD 1 = false ∧ h.getLsbD 2 = true) ∧
    (lb h c = true ↔ c = 4 ∧ h = 0b101#3)) ∧
  ∀ (x : Sym) (h k : Hist) (c : Pos) (b : Bool), (b = true ∨ c ≠ 4) → nsym x h c b = nsym x k c b

/-- [R76] The history update: the new bit enters at bit 0, bits 0 and 1 move up, bit 2 is dropped. -/
def Obligations.HistoryShifts : Prop :=
  ∀ (h : Hist) (b : Bool), (nhist h b).getLsbD 0 = b ∧ (nhist h b).getLsbD 1 = h.getLsbD 0 ∧
    (nhist h b).getLsbD 2 = h.getLsbD 1

/-- [R77] The counter update 0→1, 1→2, 2→3, 3→4, 4→4: it saturates and never wraps. -/
def Obligations.CounterSaturates : Prop :=
  ncnt 0 = 1 ∧ ncnt 1 = 2 ∧ ncnt 2 = 3 ∧ ncnt 3 = 4 ∧ ncnt 4 = 4 ∧
    ∀ c : Pos, (ncnt c).val = min (c.val + 1) 4 ∧ c ≤ ncnt c

/-- Derived (the closing formulas of R72 and R73; R82): after position 0 a bit 1 repeats the previous second half-bit and
then inverts it, a bit 0 without lookback holds the inverse of the previous first half-bit, and no bit 1 gives 11. -/
def Obligations.HalfBitFormulas : Prop :=
  ∀ (x : Sym) (h : Hist) (c : Pos), c ≠ 0 →
    ((nsym x h c true).getLsbD 1 = x.getLsbD 0 ∧ (nsym x h c true).getLsbD 0 = !x.getLsbD 0) ∧
    (lb h c = false → (nsym x h c false).getLsbD 1 = (!x.getLsbD 1) ∧ (nsym x h c false).getLsbD 0 = !x.getLsbD 1) ∧
    nsym x h c true ≠ 0b11#2

/-- Derived (R79, with R80's reachable rows as premise; log entry 6): the lookback changes the result in one case only. -/
def Obligations.LookbackChangesOneCase : Prop :=
  ∀ (x : Sym) (h : Hist) (c : Pos) (b : Bool), (lb h c = true → x = 0b01#2 ∨ x = 0b10#2) →
    (nsym x h c b ≠ naiveNsym x c b ↔ b = false ∧ x = 0b10#2 ∧ lb h c = true)

/-- [R90] The data step, and that D0 and D1 are it with their data bits: no effect but on `sym_valid_q` in a failed run;
in a good run the symbol, history, counter and valid flag, all from the registers before the step. -/
def Obligations.DataStepEffect : Prop :=
  ∀ s : State,
    exec .d0 s = dataStep false s ∧ exec .d1 s = dataStep true s ∧
    ∀ b : Bool,
      (s.errQ ≠ .none → ∃ t, dataStep b s = .next t ∧ t = { s with symValidQ := false } ∧ t.output = none) ∧
      (s.errQ = .none → ∃ t, dataStep b s = .next t ∧ t.output = some (nsym s.symQ s.histQ s.cntQ b) ∧
        t = { s with symQ := nsym s.symQ s.histQ s.cntQ b, histQ := nhist s.histQ b, cntQ := ncnt s.cntQ,
                     symValidQ := true })

/-- [R91] D0: its word, its effect in a failed run, at position 0 and after it, the corner cases, the worked example. -/
def Obligations.D0Effect : Prop :=
  decode 0b00#2 = .d0 ∧ dataBit .d0 = some false ∧
  (∀ s : State, s.errQ ≠ .none → exec .d0 s = .next { s with symValidQ := false }) ∧
  (∀ s : State, s.errQ = .none → s.cntQ = 0 →
    exec .d0 s = .next { s with symQ := 0b00#2, histQ := nhist s.histQ false, cntQ := 1, symValidQ := true }) ∧
  (∀ s : State, s.errQ = .none → s.cntQ ≠ 0 →
    exec .d0 s = .next { s with
      symQ := if s.symQ = 0b00#2 ∨ lb s.histQ s.cntQ = true then 0b11#2
        else if s.symQ = 0b11#2 then 0b00#2 else if s.symQ = 0b01#2 then 0b11#2 else 0b00#2,
      histQ := nhist s.histQ false, cntQ := ncnt s.cntQ, symValidQ := true }) ∧
  (∀ (h : Hist) (c : Pos), c ≠ 4 → lb h c = false) ∧
  (∀ s : State, s.errQ = .none → s.cntQ = 4 → s.symQ = 0b10#2 → s.histQ = 0b101#3 →
    exec .d0 s = .next { s with symQ := 0b11#2, histQ := 0b010#3, cntQ := 4, symValidQ := true })

/-- [R92] D1: its word, its effect in a failed run, at position 0 and after it, the corner cases, the worked example. -/
def Obligations.D1Effect : Prop :=
  decode 0b01#2 = .d1 ∧ dataBit .d1 = some true ∧
  (∀ s : State, s.errQ ≠ .none → exec .d1 s = .next { s with symValidQ := false }) ∧
  (∀ s : State, s.errQ = .none → s.cntQ = 0 →
    exec .d1 s = .next { s with symQ := 0b11#2, histQ := nhist s.histQ true, cntQ := 1, symValidQ := true }) ∧
  (∀ s : State, s.errQ = .none → s.cntQ ≠ 0 →
    exec .d1 s = .next { s with
      symQ := if s.symQ = 0b00#2 then 0b01#2 else if s.symQ = 0b11#2 then 0b10#2
        else if s.symQ = 0b01#2 then 0b10#2 else 0b01#2,
      histQ := nhist s.histQ true, cntQ := ncnt s.cntQ, symValidQ := true }) ∧
  (∀ s : State, s.errQ = .none → s.cntQ ≠ 0 → s.symQ = 0b01#2 ∨ s.symQ = 0b10#2 →
    ∃ t, exec .d1 s = .next t ∧ t.symQ = ~~~s.symQ) ∧
  (∀ s : State, s.errQ = .none → s.cntQ = 4 → ∃ t, exec .d1 s = .next t ∧ t.cntQ = 4) ∧
  (∀ s : State, s.errQ = .none → s.cntQ = 1 → s.symQ = 0b00#2 → s.histQ = 0b000#3 →
    exec .d1 s = .next { s with symQ := 0b01#2, histQ := 0b001#3, cntQ := 2, symValidQ := true })

/-- Derived: the frame of D0 and D1. The error register never changes, and in a failed run the symbol, history and counter
registers keep their values too (R90, R91, R92). That no coming input is consumed is the model's choice (DESIGN CHOICE, log
entry 1) and follows no rule. -/
def Obligations.DataCommandFrame : Prop :=
  ∀ s t : State, exec .d0 s = .next t ∨ exec .d1 s = .next t →
    t.errQ = s.errQ ∧ t.inputs = s.inputs ∧
    (s.errQ ≠ .none → t.symQ = s.symQ ∧ t.histQ = s.histQ ∧ t.cntQ = s.cntQ)

/-- Derived: the frame of BAD, START and a reset cycle. BAD keeps symbol, history and counter, and in a failed run the
error code (R101, R133). That BAD, START and reset consume no coming input is the model's choice (DESIGN CHOICE, log entry
1) and follows no rule; START and reset write every register of the block (R100, R150). -/
def Obligations.ControlCommandFrame : Prop :=
  ∀ s t : State,
    (exec .bad s = .next t → t.symQ = s.symQ ∧ t.histQ = s.histQ ∧ t.cntQ = s.cntQ ∧ t.inputs = s.inputs ∧
      (s.errQ ≠ .none → t.errQ = s.errQ)) ∧
    (exec .start s = .next t → t.inputs = s.inputs) ∧
    ∀ (v : Bool) (w : CmdWord), cycle ⟨true, v, w⟩ s = .next t → t.inputs = s.inputs

/-- [R100] START: its word; in every state, every register to its reset value and no output; a second START changes
nothing; an empty run has an empty output; a good run it ends had the complete encoding of its bits; the worked example. -/
def Obligations.StartEffect : Prop :=
  decode 0b11#2 = .start ∧ dataBit .start = none ∧
  (∀ s : State, ∃ t, exec .start s = .next t ∧ t.output = none ∧ t = { State.reset with inputs := s.inputs } ∧
    t = { s with symQ := 0b00#2, histQ := 0b000#3, cntQ := 0, errQ := .none, symValidQ := false } ∧
    exec .start t = .next t ∧ readResult t.ports.err [] = .ok []) ∧
  (∀ s : State, s.cntQ = 4 → s.errQ = .invalidInput → s.symQ = 0b00#2 → s.histQ = 0b110#3 →
    exec .start s = .next { s with histQ := 0b000#3, cntQ := 0, errQ := .none, symValidQ := false }) ∧
  (∀ (s : State) (v : RunView), s.Tracks v → s.errQ = .none →
    encodeCall (v.bits.map levelChar) = .ok v.out ∧ ∃ t, exec .start s = .next t ∧ t.Tracks .empty)

/-- [R101] BAD: its word; a good run fails with INVALID_INPUT and no output, whatever it has emitted; a failed run keeps
everything but `sym_valid_q`; the worked example with the D0 after it. -/
def Obligations.BadEffect : Prop :=
  decode 0b10#2 = .bad ∧ dataBit .bad = none ∧
  (∀ s : State, s.errQ = .none → ∃ t, exec .bad s = .next t ∧ t.output = none ∧
    t = { s with errQ := .invalidInput, symValidQ := false } ∧
    ∀ out, readResult t.ports.err out = .error .invalidInput) ∧
  (∀ s : State, s.errQ ≠ .none → ∃ t, exec .bad s = .next t ∧ t.output = none ∧ t = { s with symValidQ := false }) ∧
  (∀ s : State, s.errQ = .none → s.symQ = 0b01#2 → s.cntQ = 2 →
    ∃ t u, exec .bad s = .next t ∧ t.errQ.code = 0b01#2 ∧ t.output = none ∧ exec .d0 t = .next u ∧ u.output = none) ∧
  encodeCall ['0', '1', '2'] = .error .invalidInput

/-- [R102] The idle step: with no command presented, whatever `cmd`, only `sym_valid_q` falls, and `sym` keeps showing the
last symbol. -/
def Obligations.IdleEffect : Prop :=
  ∀ (s : State) (w : CmdWord), ∃ t, cycle ⟨false, false, w⟩ s = .next t ∧ t = { s with symValidQ := false } ∧
    t.output = none ∧ t.ports.sym = s.ports.sym

/-- [R103] The step function's priority: reset over idle over the command's own step; every step has a next state. -/
def Obligations.StepPriority : Prop :=
  (∀ (s : State) (v : Bool) (w : CmdWord), cycle ⟨true, v, w⟩ s = .next { State.reset with inputs := s.inputs }) ∧
  (∀ (s : State) (w : CmdWord), cycle ⟨false, false, w⟩ s = .next { s with symValidQ := false }) ∧
  (∀ s : State, cycle ⟨false, true, 0b11#2⟩ s = execStart s ∧ cycle ⟨false, true, 0b10#2⟩ s = execBad s ∧
    cycle ⟨false, true, 0b00#2⟩ s = dataStep false s ∧ cycle ⟨false, true, 0b01#2⟩ s = dataStep true s) ∧
  ∀ (p : PortIn) (s : State), ∃ t, cycle p s = .next t

/-- Derived, on the model's list of coming inputs (log entry 1): when the next cycle presents a word, the step is `exec`
of the decoded command on the state without that cycle. -/
def Obligations.StepRunsDecodedCommand : Prop :=
  ∀ (s : State) (w : CmdWord) (rest : List PortIn), s.inputs = ⟨false, true, w⟩ :: rest →
    step s = exec (decode w) { s with inputs := rest }

/-- Derived, on the model's list of coming inputs (log entry 1): a step with nothing listed is an idle step, and a listed
idle or reset cycle is taken off the list and performed. -/
def Obligations.StepWithoutCommand : Prop :=
  ∀ (s : State) (v : Bool) (w : CmdWord) (rest : List PortIn),
    (s.inputs = [] → step s = .next { s with symValidQ := false }) ∧
    (s.inputs = ⟨false, false, w⟩ :: rest → step s = .next { s with symValidQ := false, inputs := rest }) ∧
    (s.inputs = ⟨true, v, w⟩ :: rest → step s = .next { State.reset with inputs := rest })

/-- [R150, R152] Reset: whatever the command inputs, every register to its reset value, no symbol, the command dropped,
and the state is the one START leaves. -/
def Obligations.ResetEffect : Prop :=
  ∀ (s : State) (v : Bool) (w : CmdWord), ∃ t, cycle ⟨true, v, w⟩ s = .next t ∧ t.output = none ∧
    t.symQ = 0b00#2 ∧ t.histQ = 0b000#3 ∧ t.cntQ = 0 ∧ t.errQ = .none ∧ t.symValidQ = false ∧
    exec .start s = .next t

/-- [R36] The reset value of every register, and that the reset state is the one START leaves. -/
def Obligations.ResetValues : Prop :=
  State.reset.symQ = 0b00#2 ∧ State.reset.histQ = 0b000#3 ∧ State.reset.cntQ = 0 ∧
  State.reset.errQ.code = 0b00#2 ∧ State.reset.symValidQ = false ∧
  ∀ s : State, exec .start s = .next { State.reset with inputs := s.inputs }

/-- Derived (R36's last sentence, R22, R23): from any state at position 0, other values of `sym_q` and `hist_q` change no
emitted symbol, no error code and no valid flag of any later cycle. -/
def Obligations.FreshRunIgnoresSymAndHist : Prop :=
  ∀ (s : State) (x : Sym) (h : Hist) (ps : List PortIn), s.cntQ = 0 →
    ∃ t outs t' outs', play ps s = .next (t, outs) ∧
      play ps { s with symQ := x, histQ := h } = .next (t', outs') ∧
      sampled outs' = sampled outs ∧ outs'.map PortOut.err = outs.map PortOut.err ∧
      outs'.map PortOut.symValid = outs.map PortOut.symValid

/-- [R27, R35] `sym_valid_q` is 1 after a step exactly when it was a data command that emitted, `sym_q` is then that
symbol; one symbol for each D0 or D1 of a good run and none otherwise; 0 after reset. -/
def Obligations.SymValidMeansEmitted : Prop :=
  State.reset.symValidQ = false ∧
  ∀ (p : PortIn) (s : State), ∃ t, cycle p s = .next t ∧ t.output = returned p s ∧
    (t.symValidQ = true ↔ p.dataBit.isSome = true ∧ s.errQ = .none) ∧
    ∀ b, p.dataBit = some b → s.errQ = .none → t.symQ = nsym s.symQ s.histQ s.cntQ b

/-- [R29] The fault flag is `err_q != NONE`: set by BAD, cleared only by START or reset, read by every data command, which
does nothing but clear the other flag while it is set; both flags are 0 at reset. -/
def Obligations.FaultFlagRule : Prop :=
  State.reset.fault = false ∧ State.reset.symValidQ = false ∧
  (∀ s : State, s.fault = true ↔ s.errQ ≠ .none) ∧
  (∀ (p : PortIn) (s : State), ∃ t, cycle p s = .next t ∧
    (t.fault = true ↔ p.beginsRun = false ∧ (s.fault = true ∨ p.command = some .bad))) ∧
  ∀ (b : Bool) (s : State), s.fault = true → dataStep b s = .next { s with symValidQ := false }

/-- [R131] InvalidInput: raised by BAD in a good run, with the code recorded, no symbol and nothing else; D0, D1 and START
never raise it. -/
def Obligations.InvalidInputRaisedOnlyByBad : Prop :=
  ∀ (i : Instr) (s : State), s.errQ = .none →
    ∃ t, exec i s = .next t ∧ (t.errQ = .invalidInput ↔ i = .bad) ∧
      (i = .bad → t = { s with errQ := .invalidInput, symValidQ := false } ∧ t.output = none)

/-- [R134, R137] While failed, D0, D1, BAD and idle cycles change nothing but `sym_valid_q`; so over any number of cycles
that begin no run nothing is emitted and the first error's code stays. -/
def Obligations.FailedRunIsSticky : Prop :=
  (∀ (p : PortIn) (s : State), s.errQ ≠ .none → p.beginsRun = false →
    cycle p s = .next { s with symValidQ := false }) ∧
  ∀ (ps : List PortIn) (s : State), s.errQ ≠ .none → (∀ p ∈ ps, p.beginsRun = false) →
    ∃ t outs, play ps s = .next (t, outs) ∧ sampled outs = [] ∧
      t.errQ = s.errQ ∧ t.symQ = s.symQ ∧ t.histQ = s.histQ ∧ t.cntQ = s.cntQ

/-- [R135] Only START and reset leave the failed state, and both begin a new run with NONE. -/
def Obligations.FailedRunExit : Prop :=
  ∀ (p : PortIn) (s : State), s.errQ ≠ .none → ∃ t, cycle p s = .next t ∧
    (t.errQ = .none ↔ p.rst = true ∨ p.command = some .start) ∧
    (p.rst = true ∨ p.command = some .start → t = { State.reset with inputs := s.inputs })

/-- [R56, R132] The error codes on the port; only NONE and, by BAD, INVALID_INPUT are ever written; the reference function
never returns InvalidState; a host that reads `10` or `11` takes the run as failed. -/
def Obligations.InvalidStateNeverRaised : Prop :=
  (∀ s : State, s.ports.err = match s.errQ with
    | .none => 0b00#2 | .invalidInput => 0b01#2 | .invalidState => 0b10#2 | .reserved => 0b11#2) ∧
  (∀ (p : PortIn) (s : State), ∃ t, cycle p s = .next t ∧
    (t.errQ = s.errQ ∨ t.errQ = .none ∨ t.errQ = .invalidInput ∧ p.command = some .bad)) ∧
  (∀ text, encodeCall text ≠ .error .invalidState) ∧
  ∀ out, readResult 0b10#2 out = .error .invalidInput ∧ readResult 0b11#2 out = .error .invalidInput

/-- Derived (R32, R80): the register invariants are kept by every step, from every state that meets them. -/
def Obligations.StepKeepsRegisterInvariants : Prop :=
  ∀ s t : State, s.Inv → step s = .next t → t.Inv

/-- Derived (R22, R23, R24, R32, R113): every step keeps the relation between the registers, the run's data bits and the
symbols sampled, and so the symbols of a run are the reference encoding of its bits. -/
def Obligations.StepKeepsRunView : Prop :=
  ∀ (s t : State) (v : RunView), s.Tracks v → step s = .next t → t.Tracks (v.after (nextInput s) s t)

/-- Derived (R32, R36): the reset state meets the register invariants, and holds the run that has just begun. -/
def Obligations.ResetMeetsInvariants : Prop :=
  State.reset.Inv ∧ State.reset.Tracks .empty

/-- Derived (R46; log entry 1): stepping over listed inputs is the fold of the cycles over them, and leaves the rest of
the list. -/
def Obligations.StepsPlayListedInputs : Prop :=
  ∀ (ps : List PortIn) (s : State), ∃ t outs, play ps s = .next (t, outs) ∧ t.inputs = s.inputs ∧
    Host.Core.run core ps.length ({ s with inputs := ps ++ s.inputs } : State) = .next t

/-- Derived (R113): for every string, the cycles that present its call, with any idle cycles between and around them and
from any state, have the result the reference function gives. -/
def Obligations.HardwareMatchesReference : Prop :=
  ∀ (text : List Char) (ps : List PortIn) (s : State), Presents ps (callCommands text) →
    ∃ t outs, play ps s = .next (t, outs) ∧ readResult t.ports.err (sampled outs) = encodeCall text

/-- Derived (R37, R110, R113, R121): the results of calls presented one after the other are each call's own, after the
result of the run in progress. -/
def Obligations.CallsInSequenceAreIndependent : Prop :=
  ∀ (texts : List (List Char)) (s : State) (out : List Sym),
    runResults (texts.flatMap callInputs) s out = .next (readResult s.ports.err out :: texts.map encodeCall)

/-- [R37] START and reset write every register, so the ports and registers of every cycle from one on depend only on the
commands of that run: two blocks in any two states (one not yet reset after power-up among them) agree from there. -/
def Obligations.RunsShareNoState : Prop :=
  ∀ (p : PortIn) (ps : List PortIn) (s s' : State), p.beginsRun = true →
    ∃ t outs, play (p :: ps) s = .next (t, outs) ∧
      play (p :: ps) s' = .next ({ t with inputs := s'.inputs }, outs)

/-- Derived (R102's last sentence): leaving out the idle cycles of any input stream changes no emitted symbol, and no
register at its end but `sym_valid_q`. -/
def Obligations.IdleCyclesDoNotMatter : Prop :=
  ∀ (ps : List PortIn) (s : State), ∃ t outs t' outs', play ps s = .next (t, outs) ∧
    play (ps.filter fun p => p.rst || p.cmdValid) s = .next (t', outs') ∧ sampled outs' = sampled outs ∧
    { t' with symValidQ := false } = { t with symValidQ := false }

/-- Derived (R155): until the next D0, D1, START or reset, idle and BAD cycles keep `sym` on its port and show no new
symbol; in a failed run D0 and D1 do too. -/
def Obligations.SymbolHeldUntilNext : Prop :=
  ∀ (ps : List PortIn) (s : State),
    (∀ p ∈ ps, p.beginsRun = false ∧ (p.dataBit = none ∨ s.errQ ≠ .none)) →
    ∃ t outs, play ps s = .next (t, outs) ∧ t.symQ = s.symQ ∧ ∀ o ∈ outs, o.sym = s.symQ ∧ o.symValid = false

/-- [R112] The host's character mapping. -/
def Obligations.CharacterMapping : Prop :=
  charCommand '0' = .d0 ∧ charCommand '1' = .d1 ∧ ∀ c : Char, c ≠ '0' → c ≠ '1' → charCommand c = .bad

/-- [R114] The empty input is valid and gives the empty output; in the hardware, START with no data command after it. -/
def Obligations.EmptyInputIsValid : Prop :=
  encodeCall [] = .ok [] ∧
  ∀ s : State, ∃ t outs, play (callInputs []) s = .next (t, outs) ∧ callInputs [] = [commandInput .start] ∧
    sampled outs = [] ∧ t.errQ = .none ∧ readResult t.ports.err (sampled outs) = .ok []

/-- [R116] Length preservation: one symbol per bit, in the reference function and in a good run of data commands. -/
def Obligations.OneSymbolPerBit : Prop :=
  (∀ text out, encodeCall text = .ok out → out.length = text.length) ∧
  ∀ (is : List Instr) (s : State), (∀ i ∈ is, i = .d0 ∨ i = .d1) → s.errQ = .none →
    ∃ t outs, play (is.map commandInput) s = .next (t, outs) ∧ (sampled outs).length = is.length ∧ t.errQ = .none

/-- [R117] Alphabet closure and the first symbol. -/
def Obligations.AlphabetAndFirstSymbol : Prop :=
  ∀ text out, encodeCall text = .ok out →
    (∀ x ∈ out, x = 0b00#2 ∨ x = 0b01#2 ∨ x = 0b10#2 ∨ x = 0b11#2) ∧
    (text[0]? = some '0' → out[0]? = some 0b00#2) ∧ (text[0]? = some '1' → out[0]? = some 0b11#2)

/-- Derived (R119, 90_conflicts.md C2): the symbols of a run of 1 bits that starts at `p`, up to its bit `p + k`. -/
def Obligations.RunsOfOnesAlternate : Prop :=
  ∀ text out p k, encodeCall text = .ok out → p + k < text.length → (∀ j ≤ k, bitAt text (p + j) = true) →
    (p = 0 ∨ bitAt text (p - 1) = false) →
    (p = 0 → symAt out k = if k = 0 then 0b11#2 else if k % 2 = 1 then 0b10#2 else 0b01#2) ∧
    (0 < p →
      symAt out (p - 1) = 0b00#2 ∧ symAt out (p + k) = (if k % 2 = 0 then 0b01#2 else 0b10#2) ∨
      symAt out (p - 1) = 0b11#2 ∧ symAt out (p + k) = (if k % 2 = 0 then 0b10#2 else 0b01#2))

/-- [R120] The lookback trigger at position 4 or more, and none at positions 1 to 3. -/
def Obligations.LookbackTrigger : Prop :=
  ∀ text out i, encodeCall text = .ok out → i < text.length → bitAt text i = false →
    (4 ≤ i → bitAt text (i - 3) = true → bitAt text (i - 2) = false → bitAt text (i - 1) = true →
      symAt out i = 0b11#2) ∧
    (1 ≤ i → i ≤ 3 → symAt out i = nsymZero (symAt out (i - 1)) false)

/-- Derived (R122): the encoding of a prefix is a prefix of the encoding. -/
def Obligations.PrefixProperty : Prop :=
  ∀ text more : List Char, isBinary (text ++ more) = true →
    ∃ a c, encodeCall text = .ok a ∧ encodeCall (text ++ more) = .ok (a ++ c)

/-- Derived (R123): no symbol is the same as the one before it. -/
def Obligations.NoRepeatedSymbol : Prop :=
  ∀ text out i, encodeCall text = .ok out → 0 < i → i < text.length → symAt out i ≠ symAt out (i - 1)

/-- Derived (R124): the input bits read back from the symbols. -/
def Obligations.BitsReadBack : Prop :=
  ∀ text out i, encodeCall text = .ok out → i < text.length →
    (0 < i → bitAt text i = ((symAt out i).getLsbD 1 ^^ (symAt out i).getLsbD 0)) ∧
    (i = 0 → bitAt text 0 = (symAt out 0).getLsbD 1 ∧ bitAt text 0 = (symAt out 0).getLsbD 0)

/-- Derived (R125): where the level changes, inside a symbol and at the boundary before it. -/
def Obligations.LevelTransitions : Prop :=
  ∀ text out i, encodeCall text = .ok out → i < text.length →
    ((levels out).getD (2 * i) false ≠ (levels out).getD (2 * i + 1) false ↔ 0 < i ∧ bitAt text i = true) ∧
    (0 < i → ((levels out).getD (2 * i - 1) false ≠ (levels out).getD (2 * i) false ↔
      bitAt text i = false ∧
        (bitAt text (i - 1) = false ∨ i = 1 ∨ lookbackAt 4 text i = true ∧ symAt out (i - 1) = 0b10#2)))

/-- Derived (R126, 90_conflicts.md C1 and C5): an interior stretch of equal levels lasts 1 to 4 half-bits, and the
stretches of 1 are exactly those before a zero where the lookback changes the result. -/
def Obligations.IntervalsBetweenChanges : Prop :=
  ∀ text out, encodeCall text = .ok out →
    (∀ a b, InteriorStretch (levels out) a b → a + 1 ≤ b ∧ b ≤ a + 4) ∧
    ∀ a, InteriorStretch (levels out) a (a + 1) ↔
      ∃ i, 0 < i ∧ a = 2 * i - 1 ∧ i < text.length ∧ bitAt text i = false ∧ lookbackAt 4 text i = true ∧
        symAt out (i - 1) = 0b10#2

/-- Derived (R81): a lookback that began at position 3 would give the same output for every input, one that began at
position 5 would not. -/
def Obligations.LookbackBoundary : Prop :=
  (∀ text, encodeCallFrom 3 text = encodeCallFrom 4 text) ∧
  encodeCallFrom 4 ['0', '1', '0', '1', '0'] = .ok [0b00#2, 0b01#2, 0b11#2, 0b10#2, 0b11#2] ∧
  encodeCallFrom 5 ['0', '1', '0', '1', '0'] = .ok [0b00#2, 0b01#2, 0b11#2, 0b10#2, 0b00#2]

/-- [R118] The two sequences of the visualization, of length 2N each. -/
def Obligations.VisualizationSequences : Prop :=
  ∀ text out, encodeCall text = .ok out →
    (levels out).length = 2 * text.length ∧ (doubledBits text).length = 2 * text.length ∧
    ∀ j, j < text.length →
      (doubledBits text)[2 * j]? = some (bitAt text j) ∧ (doubledBits text)[2 * j + 1]? = some (bitAt text j) ∧
      (levels out)[2 * j]? = some ((symAt out j).getLsbD 1) ∧ (levels out)[2 * j + 1]? = some ((symAt out j).getLsbD 0)

/-- [R58, R115] The text of a result: two characters a symbol, first half-bit first, one space between symbols, none
before the first or after the last, and the empty text for the empty result. -/
def Obligations.RenderedText : Prop :=
  renderOutput [] = [] ∧
  ∀ out : List Sym, out ≠ [] →
    (renderOutput out).length + 1 = 3 * out.length ∧
    ∀ j, j < out.length →
      (renderOutput out)[3 * j]? = some (if (symAt out j).getLsbD 1 then '1' else '0') ∧
      (renderOutput out)[3 * j + 1]? = some (if (symAt out j).getLsbD 0 then '1' else '0') ∧
      (j + 1 < out.length → (renderOutput out)[3 * j + 2]? = some ' ')

/-- [R128] The result of a run, read where the host ends it: from the cycle that begins the run, over any cycles that begin
no other, it is the symbols sampled if `err_q` is NONE then, and InvalidInput if it is INVALID_INPUT, the only other code. -/
def Obligations.ResultOfRun : Prop :=
  ∀ (p : PortIn) (ps : List PortIn) (s : State) (out : List Sym), p.beginsRun = true →
    (∀ q ∈ ps, q.beginsRun = false) →
    ∃ t outs, play (p :: ps) s = .next (t, outs) ∧ (t.errQ = .none ∨ t.errQ = .invalidInput) ∧
      runResults (p :: ps) s out = .next [readResult s.ports.err out,
        if t.errQ = .none then .ok (sampled outs) else .error .invalidInput]

/-- [R60] `BITS` over a binary string expands to one D0 or D1 a character, `BITS ""` to nothing; any other string is an
assembly error. -/
def Obligations.BitsExpands : Prop :=
  (AsmItem.bits []).expand = .ok [] ∧
  ∀ text : List Char,
    (isBinary text = true → (AsmItem.bits text).expand =
      .ok (text.map fun c => commandInput (if c = '0' then .d0 else .d1))) ∧
    ((∃ c ∈ text, c ≠ '0' ∧ c ≠ '1') → (AsmItem.bits text).expand = .error .notBinary)

/-- [R61] `ENCODE` expands to START and one command a character; the rule's example. -/
def Obligations.EncodeExpands : Prop :=
  (∀ text : List Char, (AsmItem.encodeText text).expand =
    .ok (commandInput .start ::
      text.map fun c => commandInput (if c = '0' then .d0 else if c = '1' then .d1 else .bad))) ∧
  (callInputs ['0', '1', '2']).map listingCode = [['1', '1'], ['0', '0'], ['0', '1'], ['1', '0']]

/-- Derived (R59; log entry 12 for the blanks): every program of mnemonic lines, each with or without a comment,
assembles to its commands and idle cycles in order. -/
def Obligations.MnemonicLinesAssemble : Prop :=
  ∀ prog : List (Option Instr × Option (List Char)),
    assemble (prog.map fun l => slotLine l.1 ++ (match l.2 with | some c => ' ' :: ';' :: c | none => [])) =
      .ok (prog.map fun l => slotInput l.1)
end

