-- ==== Sys2Proof/Laws/Call.lean ====
section
/-! SUPPORT. The reference function's loop always has a symbol to emit, one for each position, and each position reads
only what stands before it. -/

namespace Sys2Proof.Machine

/-- Every 2-bit symbol is one of the four canonical ones (R22, R83). -/
theorem sym_cases (x : Sym) : x = 0b00#2 ∨ x = 0b01#2 ∨ x = 0b10#2 ∨ x = 0b11#2 := by
  revert x; decide

/-- The loop body has a symbol for every position (R83). -/
theorem refSymbol_some (m : Nat) (text : List Char) (i : Nat) (out : List Sym) :
    ∃ o, refSymbol m text i out = some o := by
  unfold refSymbol
  obtain h | h | h | h := sym_cases (symAt out (i - 1)) <;> rw [h] <;> split_ifs <;> simp_all

/-- One more turn of the loop adds the body's symbol. -/
theorem refOutput_succ {m : Nat} {text : List Char} {n : Nat} {out : List Sym} {o : Sym}
    (h : refOutput m text n = some out) (ho : refSymbol m text n out = some o) :
    refOutput m text (n + 1) = some (out ++ [o]) := by
  simp [refOutput, h, ho]

/-- The loop reaches every count, with one symbol a turn. -/
theorem refOutput_some (m : Nat) (text : List Char) (n : Nat) :
    ∃ out, refOutput m text n = some out ∧ out.length = n := by
  induction n with
  | zero => exact ⟨[], rfl, rfl⟩
  | succ n ih =>
    obtain ⟨out, h, hl⟩ := ih
    obtain ⟨o, ho⟩ := refSymbol_some m text n out
    exact ⟨out ++ [o], refOutput_succ h ho, by simp [hl]⟩

/-- A binary string's call is its loop's output. -/
theorem encodeCallFrom_binary {m : Nat} {text : List Char} {out : List Sym} (hb : isBinary text = true)
    (h : refOutput m text text.length = some out) : encodeCallFrom m text = .ok out := by
  simp [encodeCallFrom, hb, h]

/-- A call that answers symbols was of a binary string, and they are its loop's output. -/
theorem refOutput_of_encodeCall {text : List Char} {out : List Sym} (h : encodeCall text = .ok out) :
    isBinary text = true ∧ refOutput 4 text text.length = some out := by
  unfold encodeCall encodeCallFrom at h
  split at h
  · next hb =>
    obtain ⟨o, ho, -⟩ := refOutput_some 4 text text.length
    rw [ho] at h
    cases h
    exact ⟨hb, ho⟩
  · cases h

end Sys2Proof.Machine
end

