-- ==== Sys2Proof/Laws/State.lean ====
section
/-! SUPPORT. What each named operation leaves in each register, one lemma a field, and what the fault flag and the output
event say of the registers. -/

namespace Sys2Proof.Machine

@[simp] theorem emit_symQ (x : Sym) (s : State) : (emit x s).symQ = x := rfl
@[simp] theorem emit_histQ (x : Sym) (s : State) : (emit x s).histQ = s.histQ := rfl
@[simp] theorem emit_cntQ (x : Sym) (s : State) : (emit x s).cntQ = s.cntQ := rfl
@[simp] theorem emit_errQ (x : Sym) (s : State) : (emit x s).errQ = s.errQ := rfl
@[simp] theorem emit_symValidQ (x : Sym) (s : State) : (emit x s).symValidQ = true := rfl
@[simp] theorem emit_inputs (x : Sym) (s : State) : (emit x s).inputs = s.inputs := rfl

@[simp] theorem emitNone_symQ (s : State) : (emitNone s).symQ = s.symQ := rfl
@[simp] theorem emitNone_histQ (s : State) : (emitNone s).histQ = s.histQ := rfl
@[simp] theorem emitNone_cntQ (s : State) : (emitNone s).cntQ = s.cntQ := rfl
@[simp] theorem emitNone_errQ (s : State) : (emitNone s).errQ = s.errQ := rfl
@[simp] theorem emitNone_symValidQ (s : State) : (emitNone s).symValidQ = false := rfl
@[simp] theorem emitNone_inputs (s : State) : (emitNone s).inputs = s.inputs := rfl

@[simp] theorem consumeBit_symQ (b : Bool) (s : State) : (consumeBit b s).symQ = s.symQ := rfl
@[simp] theorem consumeBit_histQ (b : Bool) (s : State) : (consumeBit b s).histQ = nhist s.histQ b := rfl
@[simp] theorem consumeBit_cntQ (b : Bool) (s : State) : (consumeBit b s).cntQ = ncnt s.cntQ := rfl
@[simp] theorem consumeBit_errQ (b : Bool) (s : State) : (consumeBit b s).errQ = s.errQ := rfl
@[simp] theorem consumeBit_symValidQ (b : Bool) (s : State) : (consumeBit b s).symValidQ = s.symValidQ := rfl
@[simp] theorem consumeBit_inputs (b : Bool) (s : State) : (consumeBit b s).inputs = s.inputs := rfl

@[simp] theorem beginRun_symQ (s : State) : (beginRun s).symQ = 0b00#2 := rfl
@[simp] theorem beginRun_histQ (s : State) : (beginRun s).histQ = 0b000#3 := rfl
@[simp] theorem beginRun_cntQ (s : State) : (beginRun s).cntQ = 0 := rfl
@[simp] theorem beginRun_errQ (s : State) : (beginRun s).errQ = .none := rfl
@[simp] theorem beginRun_symValidQ (s : State) : (beginRun s).symValidQ = false := rfl
@[simp] theorem beginRun_inputs (s : State) : (beginRun s).inputs = s.inputs := rfl

@[simp] theorem raiseInvalidInput_symQ (s : State) : (raiseInvalidInput s).symQ = s.symQ := rfl
@[simp] theorem raiseInvalidInput_histQ (s : State) : (raiseInvalidInput s).histQ = s.histQ := rfl
@[simp] theorem raiseInvalidInput_cntQ (s : State) : (raiseInvalidInput s).cntQ = s.cntQ := rfl
@[simp] theorem raiseInvalidInput_errQ (s : State) : (raiseInvalidInput s).errQ = .invalidInput := rfl
@[simp] theorem raiseInvalidInput_symValidQ (s : State) : (raiseInvalidInput s).symValidQ = false := rfl
@[simp] theorem raiseInvalidInput_inputs (s : State) : (raiseInvalidInput s).inputs = s.inputs := rfl

@[simp] theorem takeInput_symQ (s : State) : (takeInput s).symQ = s.symQ := rfl
@[simp] theorem takeInput_histQ (s : State) : (takeInput s).histQ = s.histQ := rfl
@[simp] theorem takeInput_cntQ (s : State) : (takeInput s).cntQ = s.cntQ := rfl
@[simp] theorem takeInput_errQ (s : State) : (takeInput s).errQ = s.errQ := rfl
@[simp] theorem takeInput_symValidQ (s : State) : (takeInput s).symValidQ = s.symValidQ := rfl
@[simp] theorem takeInput_inputs (s : State) : (takeInput s).inputs = s.inputs.tail := rfl

/-- The flag is set in exactly the states whose code is not NONE (R29). -/
@[simp] theorem fault_eq_true (s : State) : s.fault = true ↔ s.errQ ≠ .none := by simp [State.fault]

@[simp] theorem fault_eq_false (s : State) : s.fault = false ↔ s.errQ = .none := by simp [State.fault]

/-- The output event is the symbol register where `sym_valid_q` is set (R35). -/
theorem output_eq (s : State) : s.output = if s.symValidQ then some s.symQ else none := rfl

@[simp] theorem ports_sample (s : State) : s.ports.sample = s.output := rfl

@[simp] theorem output_emit (x : Sym) (s : State) : (emit x s).output = some x := rfl

@[simp] theorem output_emitNone (s : State) : (emitNone s).output = none := rfl

@[simp] theorem output_beginRun (s : State) : (beginRun s).output = none := rfl

@[simp] theorem output_raiseInvalidInput (s : State) : (raiseInvalidInput s).output = none := rfl

/-- Beginning a run leaves the reset registers and the coming inputs (R36, R100). -/
theorem beginRun_eq_reset (s : State) : beginRun s = { State.reset with inputs := s.inputs } := rfl

end Sys2Proof.Machine
end

