-- ==== Sys2Proof/Laws/Ops.lean ====
section
/-! SUPPORT. What each meaning and each cycle can do: one inversion lemma for each, cited instead of unfolding it. -/

namespace Sys2Proof.Machine

theorem dataStep_failed {b : Bool} {s : State} (h : s.errQ ≠ .none) : dataStep b s = .next (emitNone s) := by
  simp [dataStep, h]

theorem dataStep_good {b : Bool} {s : State} (h : s.errQ = .none) :
    dataStep b s = .next (emit (nsym s.symQ s.histQ s.cntQ b) (consumeBit b s)) := by
  have hf : s.fault = false := (fault_eq_false s).mpr h
  simp [dataStep, hf]

theorem execBad_failed {s : State} (h : s.errQ ≠ .none) : execBad s = .next (emitNone s) := by
  simp [execBad, h]

theorem execBad_good {s : State} (h : s.errQ = .none) : execBad s = .next (raiseInvalidInput s) := by
  simp [execBad, h]

/-- Everything a data step can do (R90). -/
theorem dataStep_cases {b : Bool} {s t : State} (h : dataStep b s = .next t) :
    (s.errQ ≠ .none ∧ t = emitNone s) ∨
    (s.errQ = .none ∧ t = emit (nsym s.symQ s.histQ s.cntQ b) (consumeBit b s)) := by
  by_cases he : s.errQ = .none
  · rw [dataStep_good he] at h
    exact .inr ⟨he, (Host.Outcome.next.inj h).symm⟩
  · rw [dataStep_failed he] at h
    exact .inl ⟨he, (Host.Outcome.next.inj h).symm⟩

/-- Everything BAD can do (R101). -/
theorem execBad_cases {s t : State} (h : execBad s = .next t) :
    (s.errQ ≠ .none ∧ t = emitNone s) ∨ (s.errQ = .none ∧ t = raiseInvalidInput s) := by
  by_cases he : s.errQ = .none
  · rw [execBad_good he] at h
    exact .inr ⟨he, (Host.Outcome.next.inj h).symm⟩
  · rw [execBad_failed he] at h
    exact .inl ⟨he, (Host.Outcome.next.inj h).symm⟩

/-- A cycle that begins a run leaves the registers of `beginRun` (R100, R150). -/
theorem cycle_beginsRun {p : PortIn} {s : State} (h : p.beginsRun = true) : cycle p s = .next (beginRun s) := by
  obtain ⟨r, v, w⟩ := p
  cases r <;> cases v <;> simp_all [PortIn.beginsRun, PortIn.command, cycle, resetStep, exec, execStart]

/-- A cycle with a data bit is the data step (R90 to R92, R103). -/
theorem cycle_dataBit {p : PortIn} {s : State} {b : Bool} (h : p.dataBit = some b) : cycle p s = dataStep b s := by
  obtain ⟨r, v, w⟩ := p
  cases r <;> cases v <;> simp [PortIn.dataBit, PortIn.command] at h
  cases hd : decode w <;> simp_all [cycle, exec, execD0, execD1, dataBit]

/-- A cycle that performs BAD (R101, R103). -/
theorem cycle_bad {p : PortIn} {s : State} (h : p.command = some .bad) : cycle p s = execBad s := by
  obtain ⟨r, v, w⟩ := p
  cases r <;> cases v <;> simp [PortIn.command] at h
  simp [cycle, exec, h]

/-- A cycle without reset that performs no command is idle (R102, R103). -/
theorem cycle_idle {p : PortIn} {s : State} (hr : p.rst = false) (h : p.command = none) :
    cycle p s = .next (emitNone s) := by
  obtain ⟨r, v, w⟩ := p
  cases hr
  cases v <;> simp [PortIn.command] at h
  rfl

/-- Every cycle is of one of four kinds (R103). -/
theorem input_kinds (p : PortIn) :
    p.beginsRun = true ∨ (p.beginsRun = false ∧ ∃ b, p.dataBit = some b) ∨
    (p.beginsRun = false ∧ p.dataBit = none ∧ p.command = some .bad) ∨
    (p.beginsRun = false ∧ p.dataBit = none ∧ p.rst = false ∧ p.command = none) := by
  obtain ⟨r, v, w⟩ := p
  cases r <;> cases v <;> cases hd : decode w <;>
    simp [PortIn.beginsRun, PortIn.dataBit, PortIn.command, dataBit, hd]

/-- Every cycle leads to a next state, and these are all it can do (R103). -/
theorem cycle_cases (p : PortIn) (s : State) :
    (p.beginsRun = true ∧ cycle p s = .next (beginRun s)) ∨
    (p.beginsRun = false ∧ s.errQ = .none ∧ ∃ b, p.dataBit = some b ∧
      cycle p s = .next (emit (nsym s.symQ s.histQ s.cntQ b) (consumeBit b s))) ∨
    (p.beginsRun = false ∧ p.dataBit = none ∧ s.errQ = .none ∧ p.command = some .bad ∧
      cycle p s = .next (raiseInvalidInput s)) ∨
    (p.beginsRun = false ∧ (s.errQ ≠ .none ∨ p.dataBit = none ∧ p.command = none) ∧
      cycle p s = .next (emitNone s)) := by
  by_cases he : s.errQ = .none
  · obtain h | ⟨hb, b, hd⟩ | ⟨hb, hd, hc⟩ | ⟨hb, hd, hr, hc⟩ := input_kinds p
    · exact .inl ⟨h, cycle_beginsRun h⟩
    · exact .inr (.inl ⟨hb, he, b, hd, (cycle_dataBit hd).trans (dataStep_good he)⟩)
    · exact .inr (.inr (.inl ⟨hb, hd, he, hc, (cycle_bad hc).trans (execBad_good he)⟩))
    · exact .inr (.inr (.inr ⟨hb, .inr ⟨hd, hc⟩, cycle_idle hr hc⟩))
  · obtain h | ⟨hb, b, hd⟩ | ⟨hb, hd, hc⟩ | ⟨hb, hd, hr, hc⟩ := input_kinds p
    · exact .inl ⟨h, cycle_beginsRun h⟩
    · exact .inr (.inr (.inr ⟨hb, .inl he, (cycle_dataBit hd).trans (dataStep_failed he)⟩))
    · exact .inr (.inr (.inr ⟨hb, .inl he, (cycle_bad hc).trans (execBad_failed he)⟩))
    · exact .inr (.inr (.inr ⟨hb, .inl he, cycle_idle hr hc⟩))

/-- A cycle reads and writes no coming input (log entry 1). -/
theorem cycle_inputs {p : PortIn} {s t : State} (h : cycle p s = .next t) : t.inputs = s.inputs := by
  obtain ⟨-, hc⟩ | ⟨-, -, b, -, hc⟩ | ⟨-, -, -, -, hc⟩ | ⟨-, -, hc⟩ := cycle_cases p s <;>
    · rw [hc] at h
      cases h
      rfl

end Sys2Proof.Machine
end

