-- ==== Sys2Proof/Laws/PerInstr.lean ====
section
/-! SUPPORT. The per-instruction family RoundTrip: decoding a well-formed command's word and byte gives the command. -/

namespace Sys2Proof.Laws.RoundTrip

/-- The word and the byte of a well-formed command decode to it (R52; log entry 3 for the byte). -/
def Statement (i : Instr) : Prop :=
  i.wellFormed = true → decode (encode i) = i ∧ decodeBytes [encodeByte i] = .ok (i, [])

theorem d0 : Statement .d0 := fun _ => ⟨rfl, rfl⟩

theorem d1 : Statement .d1 := fun _ => ⟨rfl, rfl⟩

theorem bad : Statement .bad := fun _ => ⟨rfl, rfl⟩

theorem start : Statement .start := fun _ => ⟨rfl, rfl⟩

end Sys2Proof.Laws.RoundTrip
end

