-- ==== Sys2Proof/Laws/Run.lean ====
section
/-! SUPPORT. How a list of cycles unfolds: one cycle and the rest, and two lists one after the other. -/

namespace Sys2Proof.Machine

@[simp] theorem play_nil (s : State) : play [] s = .next (s, []) := rfl

/-- Playing on after a first cycle. -/
theorem play_cons {p : PortIn} {ps : List PortIn} {s t u : State} {outs : List PortOut} (h : cycle p s = .next t)
    (hr : play ps t = .next (u, outs)) : play (p :: ps) s = .next (u, t.ports :: outs) := by
  simp [play, h, hr]

/-- Playing one list and then another. -/
theorem play_append {ps qs : List PortIn} {s t u : State} {outs outs' : List PortOut}
    (h : play ps s = .next (t, outs)) (hq : play qs t = .next (u, outs')) :
    play (ps ++ qs) s = .next (u, outs ++ outs') := by
  induction ps generalizing s outs with
  | nil =>
    cases h
    exact hq
  | cons p ps ih =>
    rw [play] at h
    split at h <;> try contradiction
    next s₁ h₁ =>
      split at h <;> try contradiction
      next u₁ outs₁ h₂ =>
        cases h
        exact play_cons h₁ (ih h₂)

@[simp] theorem sampled_nil : sampled [] = [] := rfl

theorem sampled_cons (t : State) (outs : List PortOut) : sampled (t.ports :: outs) = t.output.toList ++ sampled outs := by
  cases h : t.output <;> simp [sampled, h]

@[simp] theorem sampled_append (outs outs' : List PortOut) : sampled (outs ++ outs') = sampled outs ++ sampled outs' := by
  simp [sampled]

/-- A first step of a run, of any machine. -/
theorem coreRun_succ {M : Host.Core} {n : Nat} {s t : M.State} (h : M.step s = .next t) :
    M.run (n + 1) s = M.run n t := by
  simp [Host.Core.run, h]

/-- A first step of a run of the block. -/
theorem run_succ {n : Nat} {s t : State} (h : step s = .next t) :
    Host.Core.run Sys2Proof.core (n + 1) s = Host.Core.run Sys2Proof.core n t :=
  coreRun_succ (M := Sys2Proof.core) h

end Sys2Proof.Machine
end

