-- ==== Sys2Proof/Laws/Transition.lean ====
section
/-! SUPPORT. The bits of the history update, the values of the counter update, and the values the next-symbol tables
take. -/

namespace Sys2Proof.Machine

/-- The new bit enters at bit 0 (R76). -/
@[simp] theorem nhist_zero (h : Hist) (b : Bool) : (nhist h b)[0] = b := by
  revert h b; decide

/-- Bit 0 moves to bit 1 (R76). -/
@[simp] theorem nhist_one (h : Hist) (b : Bool) : (nhist h b)[1] = h[0] := by
  revert h b; decide

/-- Bit 1 moves to bit 2 (R76). -/
@[simp] theorem nhist_two (h : Hist) (b : Bool) : (nhist h b)[2] = h[1] := by
  revert h b; decide

@[simp] theorem ncnt_val (c : Pos) : (ncnt c).val = min (c.val + 1) 4 := rfl

@[simp] theorem ncnt_ne_zero (c : Pos) : ncnt c ≠ 0 := by
  revert c; decide

theorem ncnt_eq_one_iff {c : Pos} : ncnt c = 1 ↔ c = 0 := by
  revert c; decide

/-- The bit-1 table gives only symbols with a mid-bit level change (R72). -/
theorem nsymOne_values (x : Sym) : nsymOne x = 0b01#2 ∨ nsymOne x = 0b10#2 := by
  revert x; decide

/-- The bit-0 rule gives only flat symbols (R73). -/
theorem nsymZero_values (x : Sym) (l : Bool) : nsymZero x l = 0b00#2 ∨ nsymZero x l = 0b11#2 := by
  revert x l; decide

/-- The lookback never holds before position 4 (R74). -/
theorem lb_of_ne_four {h : Hist} {c : Pos} (hc : c ≠ 4) : lb h c = false := by
  simp [lb, hc]

/-- Two histories that agree in their three bits are the same history. -/
theorem hist_ext {h k : Hist} (h0 : h.getLsbD 0 = k.getLsbD 0) (h1 : h.getLsbD 1 = k.getLsbD 1)
    (h2 : h.getLsbD 2 = k.getLsbD 2) : h = k := by
  apply BitVec.eq_of_getLsbD_eq
  intro i hi
  interval_cases i <;> assumption

end Sys2Proof.Machine
end

