-- ==== Sys2Proof/Tests/Slice0.lean ====
section
/-! SUPPORT. Tests with expected results from the spec's tables and vectors (V<n> of 95_test_vectors.md), and for every
statement with hypotheses a witness that meets them. -/

namespace Sys2Proof.Tests

open Sys2Proof.Machine

/-- A state with no listed input, in the order the vectors write it: `sym_q hist_q cnt_q err_q sym_valid_q`. -/
def st (sym : Sym) (hist : Hist) (cnt : Pos) (err : ErrCode) (valid : Bool) : State :=
  ⟨sym, hist, cnt, err, valid, []⟩

/-! Well-formedness and decoding -/

/-- A byte with a bit above the command word is refused (log entry 3). -/
theorem test_illformed_byte : isCommandByte 0x04#8 = false ∧ decodeBytes [0x04#8] = .error .highBitsSet := ⟨rfl, rfl⟩

/-- R60: `BITS "02"` is an assembly error. -/
theorem test_illformed_bits : (AsmItem.bits ['0', '2']).wellFormed = false := by decide

/-- The command map of R52, each word as its two bits (c, b). -/
theorem test_decode_d0 : decode 0b00#2 = .d0 := rfl
theorem test_decode_d1 : decode 0b01#2 = .d1 := rfl
theorem test_decode_bad : decode 0b10#2 = .bad := rfl
theorem test_decode_start : decode 0b11#2 = .start := rfl

/-- The opcode table's words, and the first number that is no word of it. -/
theorem test_decode_table_words :
    [0, 1, 2, 3, 4].map (decodeTableWord 8) = [some .d0, some .d1, some .bad, some .start, none] := by decide

/-! One step of each command -/

/-- V6.11: the lookback fires. -/
theorem test_d0_lookback :
    exec .d0 (st 0b10#2 0b101#3 4 .none true) = .next (st 0b11#2 0b010#3 4 .none true) := rfl

/-- V6.20: a failed run. -/
theorem test_d0_failed :
    exec .d0 (st 0b01#2 0b001#3 2 .invalidInput false) = .next (st 0b01#2 0b001#3 2 .invalidInput false) := rfl

/-- V6.17: the order of evaluation of R73, in a state no run reaches (log entry 6). -/
theorem test_d0_lookback_first :
    exec .d0 (st 0b11#2 0b101#3 4 .none true) = .next (st 0b11#2 0b010#3 4 .none true) := rfl

/-- V6.2: position 0. -/
theorem test_d1_first :
    exec .d1 (st 0b00#2 0b000#3 0 .none false) = .next (st 0b11#2 0b001#3 1 .none true) := rfl

/-- V6.19: the counter saturates. -/
theorem test_d1_saturates :
    exec .d1 (st 0b01#2 0b111#3 4 .none true) = .next (st 0b10#2 0b111#3 4 .none true) := rfl

/-- V7.4 and V7.6: the first BAD fails the run, the second changes nothing. -/
theorem test_bad_good_run :
    exec .bad (st 0b01#2 0b001#3 2 .none true) = .next (st 0b01#2 0b001#3 2 .invalidInput false) := rfl
theorem test_bad_failed_run :
    exec .bad (st 0b01#2 0b001#3 2 .invalidInput false) = .next (st 0b01#2 0b001#3 2 .invalidInput false) := rfl

/-- V7.1: START clears a failed run. -/
theorem test_start_after_failure :
    exec .start (st 0b00#2 0b110#3 4 .invalidInput false) = .next (st 0b00#2 0b000#3 0 .none false) := rfl

/-- V7.7: an idle step with nothing listed. -/
theorem test_step_idle :
    step (st 0b01#2 0b001#3 2 .none true) = .next (st 0b01#2 0b001#3 2 .none false) := rfl

/-- V7.9: reset wins over a D0 in the same cycle. -/
theorem test_step_reset_wins :
    step { st 0b10#2 0b101#3 4 .none true with inputs := [⟨true, true, 0b00#2⟩] } =
      .next (st 0b00#2 0b000#3 0 .none false) := rfl

/-- The first command after reset, placed as the host places it. -/
theorem test_step_fetch_word : step (State.reset.withFetchWord 8 1) = .next (st 0b11#2 0b001#3 1 .none true) := rfl

/-! The call level and the notation -/

/-- V1: the golden vector, as the document writes it. -/
theorem test_golden_vector :
    encodeCall ['0', '1', '0', '1', '0', '0', '0', '0', '0', '0', '0', '1', '1', '1', '1', '1', '1', '0', '0', '1', '1', '0'] =
      .ok [0b00#2, 0b01#2, 0b11#2, 0b10#2, 0b11#2, 0b00#2, 0b11#2, 0b00#2, 0b11#2, 0b00#2, 0b11#2, 0b10#2, 0b01#2,
        0b10#2, 0b01#2, 0b10#2, 0b01#2, 0b11#2, 0b00#2, 0b01#2, 0b10#2, 0b00#2] := by decide

/-- V10.20: a trailing space is a non-binary character. -/
theorem test_trailing_space : encodeCall ['0', '1', ' '] = .error .invalidInput := by decide

/-- R58 and R115 on V10.3's result. -/
theorem test_render : renderOutput [0b11#2, 0b00#2] = ['1', '1', ' ', '0', '0'] := by decide

/-- R59: a command with a comment, and a word that is no mnemonic. -/
theorem test_parse_line : parseLine [' ', 'D', '1', ' ', ';', 'x'] = .ok (.command .d1) := by rfl
theorem test_parse_unknown : parseLine ['D', '2'] = .error .unknownMnemonic := by rfl

/-- R61 with its quotes. -/
theorem test_parse_encode :
    parseLine (['E', 'N', 'C', 'O', 'D', 'E', ' ', quoteChar] ++ ['0', ';', quoteChar]) = .ok (.encodeText ['0', ';']) := by
  rfl

/-! Witnesses: for each statement with hypotheses, operands and a state that meet them -/

/-- FieldsSelectCommand: the last word of each class. -/
theorem witness_field_classes : (0b01#2).getLsbD 1 = false ∧ (0b11#2).getLsbD 1 = true := by decide

/-- DecodeInvertsEncode. -/
theorem witness_wellformed : Instr.start.wellFormed = true := rfl

/-- ByteStreamDecodesBack, at the lowest refused byte. -/
theorem witness_high_byte : 4 ≤ (0x04#8).toNat := by decide

/-- BitOneTable, HalfBitFormulas: the first position after 0. BitZeroRule, LookbackChangesOneCase: with and without the
lookback, and the premise on the previous symbol. LookbackPredicate: the last position without one. -/
theorem witness_positions :
    (1 : Pos) ≠ 0 ∧ (4 : Pos) ≠ 0 ∧ lb 0b101#3 4 = true ∧ lb 0b101#3 3 = false ∧ (3 : Pos) ≠ 4 ∧
    (lb 0b101#3 4 = true → (0b10#2 : Sym) = 0b01#2 ∨ (0b10#2 : Sym) = 0b10#2) := by decide

/-- DataStepEffect, D0Effect, D1Effect, InvalidInputRaisedOnlyByBad: good runs at positions 0, 1 and 4, as their worked
examples have them, and a failed run. -/
theorem witness_data_states :
    (st 0b00#2 0b000#3 0 .none false).errQ = .none ∧ (st 0b00#2 0b000#3 0 .none false).cntQ = 0 ∧
    (st 0b10#2 0b101#3 4 .none true).errQ = .none ∧ (st 0b10#2 0b101#3 4 .none true).cntQ ≠ 0 ∧
    (st 0b10#2 0b101#3 4 .none true).cntQ = 4 ∧ (st 0b10#2 0b101#3 4 .none true).symQ = 0b10#2 ∧
    (st 0b10#2 0b101#3 4 .none true).histQ = 0b101#3 ∧
    (st 0b00#2 0b000#3 1 .none true).cntQ = 1 ∧ (st 0b00#2 0b000#3 1 .none true).symQ = 0b00#2 ∧
    (st 0b00#2 0b000#3 1 .none true).histQ = 0b000#3 ∧ (st 0b01#2 0b001#3 2 .invalidInput false).errQ ≠ .none := by
  decide

/-- DataCommandFrame: D0 in a failed run, D1 in a good one. -/
theorem witness_data_frame :
    (∃ t, exec .d0 (st 0b01#2 0b001#3 2 .invalidInput false) = .next t) ∧
    (st 0b01#2 0b001#3 2 .invalidInput false).errQ ≠ .none ∧ ∃ t, exec .d1 (st 0b00#2 0b000#3 0 .none false) = .next t :=
  ⟨⟨_, rfl⟩, by decide, ⟨_, rfl⟩⟩

/-- ControlCommandFrame: BAD in a failed run, START, and reset with a command presented. -/
theorem witness_control_frame :
    (∃ t, exec .bad (st 0b01#2 0b001#3 2 .invalidInput false) = .next t) ∧
    (st 0b01#2 0b001#3 2 .invalidInput false).errQ ≠ .none ∧
    (∃ t, exec .start (st 0b10#2 0b101#3 4 .none true) = .next t) ∧
    ∃ t, cycle ⟨true, true, 0b00#2⟩ (st 0b10#2 0b101#3 4 .none true) = .next t :=
  ⟨⟨_, rfl⟩, by decide, ⟨_, rfl⟩, ⟨_, rfl⟩⟩

/-- A good run that has consumed the bits 0, 1 and emitted 00, 01, with a D1 listed next. -/
def twoBits : State := { st 0b01#2 0b001#3 2 .none true with inputs := [commandInput .d1] }

/-- StartEffect, StepKeepsRunView: a run in progress, and a step of it. -/
theorem witness_run_view :
    twoBits.Tracks ⟨[false, true], [0b00#2, 0b01#2]⟩ ∧ twoBits.errQ = .none ∧ ∃ t, step twoBits = .next t := by
  refine ⟨⟨rfl, ?_, rfl, by decide, .inl rfl, by simp [twoBits, st]⟩, rfl, ⟨_, rfl⟩⟩
  intro k hk
  interval_cases k <;> simp [twoBits, st]

/-- StartEffect's worked example, and its clause on a failed run. -/
theorem witness_start_example :
    (st 0b00#2 0b110#3 4 .invalidInput false).cntQ = 4 ∧ (st 0b00#2 0b110#3 4 .invalidInput false).errQ = .invalidInput ∧
    (st 0b00#2 0b110#3 4 .invalidInput false).symQ = 0b00#2 ∧ (st 0b00#2 0b110#3 4 .invalidInput false).histQ = 0b110#3 := by
  decide

/-- BadEffect: its worked example and a failed run. -/
theorem witness_bad_states :
    twoBits.errQ = .none ∧ twoBits.symQ = 0b01#2 ∧ twoBits.cntQ = 2 ∧ (st 0b01#2 0b001#3 2 .invalidInput false).errQ ≠ .none := by
  decide

/-- StepRunsDecodedCommand, StepWithoutCommand: each kind of next input. -/
theorem witness_next_inputs :
    twoBits.inputs = ⟨false, true, 0b01#2⟩ :: [] ∧ State.reset.inputs = [] ∧
    ({ twoBits with inputs := [⟨false, false, 0b11#2⟩] } : State).inputs = ⟨false, false, 0b11#2⟩ :: [] ∧
    ({ twoBits with inputs := [resetInput] } : State).inputs = ⟨true, false, 0b00#2⟩ :: [] := by decide

/-- FreshRunIgnoresSymAndHist: position 0 with registers no run leaves there. -/
theorem witness_fresh : (st 0b11#2 0b101#3 0 .none true).cntQ = 0 := rfl

/-- SymValidMeansEmitted, FaultFlagRule: a data cycle in a good run, and the flag in a failed one. -/
theorem witness_data_cycle :
    (commandInput .d1).dataBit = some true ∧ twoBits.errQ = .none ∧ (st 0b01#2 0b001#3 2 .invalidInput false).fault = true := by
  decide

/-- FailedRunIsSticky, FailedRunExit, SymbolHeldUntilNext: a failed run with cycles that begin no run, and the two that
leave it. -/
theorem witness_failed_run :
    (st 0b01#2 0b001#3 2 .invalidInput false).errQ ≠ .none ∧
    (∀ p ∈ [commandInput .d0, commandInput .bad, idleInput], p.beginsRun = false) ∧
    resetInput.rst = true ∧ (commandInput .start).command = some .start := by decide

/-- SymbolHeldUntilNext in a good run. -/
theorem witness_held :
    ∀ p ∈ [idleInput, commandInput .bad], p.beginsRun = false ∧ (p.dataBit = none ∨ twoBits.errQ ≠ .none) := by decide

/-- StepKeepsRegisterInvariants: a state a run reaches, at the lookback, and a step of it. -/
theorem witness_inv :
    ({ st 0b10#2 0b101#3 4 .none true with inputs := [commandInput .d0] } : State).Inv ∧
    ∃ t, step { st 0b10#2 0b101#3 4 .none true with inputs := [commandInput .d0] } = .next t := by
  refine ⟨⟨by decide, by decide, by decide, ?_, .inl rfl, by decide⟩, ⟨_, rfl⟩⟩
  intro k hk
  exact BitVec.getLsbD_of_ge _ _ (Nat.le_of_succ_le hk)

/-- HardwareMatchesReference: a call with idle cycles before, inside and after it. -/
theorem witness_presents :
    Presents [idleInput, commandInput .start, commandInput .d0, idleInput, commandInput .bad, idleInput]
      (callCommands ['0', 'x']) := ⟨by decide, by decide⟩

/-- RunsShareNoState: both cycles that begin a run. -/
theorem witness_begins_run : resetInput.beginsRun = true ∧ (commandInput .start).beginsRun = true := by decide

/-- CharacterMapping: the characters on either side of '0' and '1'. -/
theorem witness_characters : '/' ≠ '0' ∧ '/' ≠ '1' ∧ '2' ≠ '0' ∧ '2' ≠ '1' := by decide

/-- OneSymbolPerBit: a good run of data commands. -/
theorem witness_data_commands : ∀ i ∈ [Instr.d0, Instr.d1], i = .d0 ∨ i = .d1 := by decide

/-- V10.10: the statements on a call's output (AlphabetAndFirstSymbol for a first 0, NoRepeatedSymbol, BitsReadBack,
LevelTransitions, VisualizationSequences; LookbackTrigger at its first position 4 and, at 2, without it). -/
theorem witness_lookback_call :
    encodeCall ['0', '1', '0', '1', '0'] = .ok [0b00#2, 0b01#2, 0b11#2, 0b10#2, 0b11#2] ∧
    (4 : Nat) < ['0', '1', '0', '1', '0'].length ∧ bitAt ['0', '1', '0', '1', '0'] 4 = false ∧
    bitAt ['0', '1', '0', '1', '0'] 3 = true ∧ bitAt ['0', '1', '0', '1', '0'] 2 = false ∧
    bitAt ['0', '1', '0', '1', '0'] 1 = true ∧ ['0', '1', '0', '1', '0'][0]? = some '0' := by decide

/-- V10.9: the same bits one position earlier, where the lookback is not consulted (LookbackTrigger at position 3), and a
first 1 (AlphabetAndFirstSymbol). -/
theorem witness_no_lookback_at_three :
    encodeCall ['1', '0', '1', '0'] = .ok [0b11#2, 0b00#2, 0b01#2, 0b11#2] ∧ (3 : Nat) < ['1', '0', '1', '0'].length ∧
    bitAt ['1', '0', '1', '0'] 3 = false ∧ ['1', '0', '1', '0'][0]? = some '1' := by decide

/-- RunsOfOnesAlternate: V10.7, a run from position 0, and V9's `0111`, an interior run, each to its last bit. -/
theorem witness_runs_of_ones :
    encodeCall ['1', '1', '1'] = .ok [0b11#2, 0b10#2, 0b01#2] ∧ (∀ j ≤ 2, bitAt ['1', '1', '1'] (0 + j) = true) ∧
    encodeCall ['0', '1', '1', '1'] = .ok [0b00#2, 0b01#2, 0b10#2, 0b01#2] ∧
    (∀ j ≤ 2, bitAt ['0', '1', '1', '1'] (1 + j) = true) ∧ bitAt ['0', '1', '1', '1'] (1 - 1) = false := by decide

/-- PrefixProperty, BitsExpands: a binary string, and one that is not. -/
theorem witness_binary : isBinary (['0', '1'] ++ ['0']) = true ∧ ∃ c ∈ ['0', 'x'], c ≠ '0' ∧ c ≠ '1' :=
  ⟨by decide, 'x', by decide, by decide, by decide⟩

/-- IntervalsBetweenChanges: V10.10's levels 0001111011 have interior stretches of 4 and of 1. -/
theorem witness_stretches :
    InteriorStretch (levels [0b00#2, 0b01#2, 0b11#2, 0b10#2, 0b11#2]) 3 7 ∧
    InteriorStretch (levels [0b00#2, 0b01#2, 0b11#2, 0b10#2, 0b11#2]) 7 8 := by
  refine ⟨⟨by decide, by decide, by decide, ?_, by decide, by decide⟩,
    ⟨by decide, by decide, by decide, ?_, by decide, by decide⟩⟩ <;>
    · intro j h h'
      interval_cases j <;> decide

/-- RenderedText: a result of two symbols. -/
theorem witness_rendered : [(0b11#2 : Sym), 0b00#2] ≠ [] ∧ 0 + 1 < [(0b11#2 : Sym), 0b00#2].length := by decide

/-- ResultOfRun: a run that starts, goes on and fails. -/
theorem witness_results :
    (commandInput .start).beginsRun = true ∧ ∀ q ∈ [commandInput .d0, idleInput, commandInput .bad], q.beginsRun = false := by
  decide

end Sys2Proof.Tests
end

section
/-! PROOFS. The family State: reset values, the valid flag and the fault flag after any cycle, and that a run reads
nothing of the state before it. -/

namespace Sys2Proof.Machine

/-- START is the beginning of a run, from any state (R100). -/
theorem exec_start (s : State) : exec .start s = .next (beginRun s) := rfl

/-- Every cycle has a next state (R103). -/
theorem cycle_total (p : PortIn) (s : State) : ∃ t, cycle p s = .next t := by
  obtain ⟨-, h⟩ | ⟨-, -, b, -, h⟩ | ⟨-, -, -, -, h⟩ | ⟨-, -, h⟩ := cycle_cases p s <;> exact ⟨_, h⟩

/-! What the kind of a cycle says of its data bit -/

theorem dataBit_eq_none_of_beginsRun {p : PortIn} (h : p.beginsRun = true) : p.dataBit = none := by
  obtain ⟨r, v, w⟩ := p
  cases r <;> cases v <;> simp_all [PortIn.beginsRun, PortIn.dataBit, PortIn.command, dataBit]

theorem dataBit_eq_none_of_bad {p : PortIn} (h : p.command = some .bad) : p.dataBit = none := by
  simp [PortIn.dataBit, h, dataBit]

/-! The valid flag and the output event (R27, R35) -/

theorem returned_good {p : PortIn} {s : State} {b : Bool} (hd : p.dataBit = some b) (he : s.errQ = .none) :
    returned p s = some (nsym s.symQ s.histQ s.cntQ b) := by
  simp [returned, hd, he]

theorem returned_eq_none {p : PortIn} {s : State} (h : s.errQ ≠ .none ∨ p.dataBit = none) : returned p s = none := by
  cases hd : p.dataBit with
  | none => simp [returned, hd]
  | some b =>
    have he : s.errQ ≠ .none := h.resolve_right (by simp [hd])
    simp [returned, hd, he]

theorem output_eq_none {s : State} (h : s.symValidQ = false) : s.output = none := by
  simp [output_eq, h]

/-- A cycle either is a data command of a good run and emits, or leaves the valid flag clear. -/
theorem cycle_emits_or_clears_valid (p : PortIn) (s : State) :
    (∃ b, p.dataBit = some b ∧ s.errQ = .none ∧
      cycle p s = .next (emit (nsym s.symQ s.histQ s.cntQ b) (consumeBit b s))) ∨
    ((s.errQ ≠ .none ∨ p.dataBit = none) ∧ ∃ t, cycle p s = .next t ∧ t.symValidQ = false) := by
  obtain ⟨hb, h⟩ | ⟨-, he, b, hd, h⟩ | ⟨-, hd, -, -, h⟩ | ⟨-, hq, h⟩ := cycle_cases p s
  · exact .inr ⟨.inr (dataBit_eq_none_of_beginsRun hb), _, h, rfl⟩
  · exact .inl ⟨b, hd, he, h⟩
  · exact .inr ⟨.inr hd, _, h, rfl⟩
  · exact .inr ⟨hq.imp_right And.left, _, h, rfl⟩

/-! The fault flag (R29) -/

/-- Any cycle sets or keeps the flag unless it begins a run, and only BAD sets it. -/
theorem cycle_fault_iff {p : PortIn} {s t : State} (h : cycle p s = .next t) :
    t.fault = true ↔ p.beginsRun = false ∧ (s.fault = true ∨ p.command = some .bad) := by
  obtain ⟨hb, hc⟩ | ⟨-, he, b, hd, hc⟩ | ⟨hb, -, -, hbad, hc⟩ | ⟨hb, hq, hc⟩ := cycle_cases p s <;>
    obtain rfl := Host.Outcome.next.inj (h.symm.trans hc)
  · simp [hb]
  · have hbad : p.command ≠ some .bad := fun hbad => by simp [dataBit_eq_none_of_bad hbad] at hd
    simp [he, hbad]
  · simp [hb, hbad]
  · obtain he | ⟨-, hidle⟩ := hq
    · simp [hb, he]
    · simp [hb, hidle]

/-! The coming inputs are carried along and never read (log entry 1) -/

theorem cycle_setInputs {p : PortIn} {s t : State} (l : List PortIn) (h : cycle p s = .next t) :
    cycle p { s with inputs := l } = .next { t with inputs := l } := by
  obtain hb | ⟨-, b, hd⟩ | ⟨-, -, hbad⟩ | ⟨-, -, hr, hidle⟩ := input_kinds p
  · rw [cycle_beginsRun hb] at h ⊢
    cases h
    rfl
  · rw [cycle_dataBit hd] at h ⊢
    obtain ⟨he, rfl⟩ | ⟨he, rfl⟩ := dataStep_cases h
    · exact dataStep_failed he
    · exact dataStep_good he
  · rw [cycle_bad hbad] at h ⊢
    obtain ⟨he, rfl⟩ | ⟨he, rfl⟩ := execBad_cases h
    · exact execBad_failed he
    · exact execBad_good he
  · rw [cycle_idle hr hidle] at h ⊢
    cases h
    rfl

/-- Playing any cycles reaches a state, and with other coming inputs the same registers and ports. -/
theorem play_total_setInputs (ps : List PortIn) (s : State) (l : List PortIn) :
    ∃ t outs, play ps s = .next (t, outs) ∧ play ps { s with inputs := l } = .next ({ t with inputs := l }, outs) := by
  induction ps generalizing s with
  | nil => exact ⟨s, [], rfl, rfl⟩
  | cons p ps ih =>
    obtain ⟨t, ht⟩ := cycle_total p s
    obtain ⟨u, outs, hu, hu'⟩ := ih t
    exact ⟨u, t.ports :: outs, play_cons ht hu,
      play_cons (t := { t with inputs := l }) (cycle_setInputs l ht) hu'⟩

/-- Beginning a run in two states gives states that differ in the coming inputs only (R36, R37). -/
theorem beginRun_setInputs (s s' : State) : { beginRun s with inputs := s'.inputs } = beginRun s' := rfl

/-- A first cycle that begins a run shows the reset ports, and the rest plays from the begun run. -/
theorem play_cons_beginsRun {p : PortIn} {ps : List PortIn} {s t : State} {outs : List PortOut}
    (hb : p.beginsRun = true) (h : play ps (beginRun s) = .next (t, outs)) :
    play (p :: ps) s = .next (t, State.reset.ports :: outs) :=
  play_cons (t := beginRun s) (cycle_beginsRun hb) h

/-! The obligations -/

/-- Settles O39: after the first cycle the two states differ only in the coming inputs, which no cycle reads. -/
theorem runsShareNoState : Obligations.RunsShareNoState := by
  intro p ps s s' hb
  obtain ⟨t, outs, ht, ht'⟩ := play_total_setInputs ps (beginRun s) s'.inputs
  rw [beginRun_setInputs] at ht'
  exact ⟨t, State.reset.ports :: outs, play_cons_beginsRun hb ht, play_cons_beginsRun hb ht'⟩

/-- Settles O25: the reset values are `State.reset`'s own fields, and START is `beginRun`. -/
theorem resetValues : Obligations.ResetValues := by
  refine ⟨rfl, rfl, rfl, rfl, rfl, fun s => ?_⟩
  rw [exec_start, beginRun_eq_reset]

/-- Settles O27, by whether the cycle emits. -/
theorem symValidMeansEmitted : Obligations.SymValidMeansEmitted := by
  refine ⟨rfl, fun p s => ?_⟩
  obtain ⟨b, hd, he, h⟩ | ⟨hq, t, h, hv⟩ := cycle_emits_or_clears_valid p s
  · refine ⟨_, h, ?_, ?_, fun b' hd' _ => ?_⟩
    · rw [output_emit, returned_good hd he]
    · simp [hd, he]
    · obtain rfl : b = b' := Option.some.inj (hd.symm.trans hd')
      rfl
  · have hout : t.output = returned p s := by rw [output_eq_none hv, returned_eq_none hq]
    obtain he | hd := hq
    · exact ⟨t, h, hout, by simp [hv, he], fun _ _ he' => absurd he' he⟩
    · exact ⟨t, h, hout, by simp [hv, hd], fun _ hd' => by simp [hd] at hd'⟩

/-- Settles O28: `cycle_fault_iff` for the flag after a cycle, `dataStep_failed` for what it blocks. -/
theorem faultFlagRule : Obligations.FaultFlagRule := by
  refine ⟨rfl, rfl, fault_eq_true, fun p s => ?_, fun b s hf => ?_⟩
  · obtain ⟨t, h⟩ := cycle_total p s
    exact ⟨t, h, cycle_fault_iff h⟩
  · exact dataStep_failed ((fault_eq_true s).mp hf)

end Sys2Proof.Machine
end

section
/-! PROOFS. The family Encoding: the fields of a command word, the error codes, the text of a result, and what the
pseudo-instructions expand to. -/

namespace Sys2Proof.Machine

/-! The classes of command words (R51, R53) -/

/-- Bit 1 selects the class of the command, bit 0 the command in its class. -/
theorem decode_eq (w : CmdWord) :
    decode w = if w.getLsbD 1 then (if w.getLsbD 0 then .start else .bad)
      else if w.getLsbD 0 then .d1 else .d0 := by
  unfold decode cmdClass cmdBit
  cases w.getLsbD 1 <;> cases w.getLsbD 0 <;> rfl

/-! The error code on the port, after a cycle, and as a call's result (R56, R132) -/

/-- Any cycle keeps the code, clears it, or is a BAD that writes INVALID_INPUT. -/
theorem cycle_errQ {p : PortIn} {s t : State} (h : cycle p s = .next t) :
    t.errQ = s.errQ ∨ t.errQ = .none ∨ t.errQ = .invalidInput ∧ p.command = some .bad := by
  obtain ⟨-, hc⟩ | ⟨-, -, b, -, hc⟩ | ⟨-, -, -, hbad, hc⟩ | ⟨-, -, hc⟩ := cycle_cases p s <;>
    obtain rfl := Host.Outcome.next.inj (h.symm.trans hc)
  · exact .inr (.inl rfl)
  · exact .inl rfl
  · exact .inr (.inr ⟨rfl, hbad⟩)
  · exact .inl rfl

/-- A call of a string that is not binary is refused (R111). -/
theorem encodeCallFrom_not_binary {m : Nat} {text : List Char} (hb : isBinary text = false) :
    encodeCallFrom m text = .error .invalidInput := by
  simp [encodeCallFrom, hb]

/-- The loop has a symbol for every position, so the InvalidState branch is never taken (R83, R132). -/
theorem encodeCallFrom_ne_invalidState (m : Nat) (text : List Char) :
    encodeCallFrom m text ≠ .error .invalidState := by
  cases hb : isBinary text with
  | false => simp [encodeCallFrom_not_binary hb]
  | true =>
    obtain ⟨out, h, -⟩ := refOutput_some m text text.length
    simp [encodeCallFrom_binary hb h]

/-- Any code but NONE reads as a failed run (R132, R136). -/
theorem readResult_failed {err : BitVec 2} (h : err ≠ ErrCode.none.code) (out : List Sym) :
    readResult err out = .error .invalidInput := by
  simp [readResult, h]

/-! The text of a result (R58, R115) -/

@[simp] theorem symText_length (x : Sym) : (symText x).length = 2 := rfl

/-- A result of two or more symbols is the first symbol's text, a space, and the text of the others. -/
theorem renderOutput_cons_of_ne_nil (x : Sym) {rest : List Sym} (h : rest ≠ []) :
    renderOutput (x :: rest) = symText x ++ ' ' :: renderOutput rest := by
  cases rest with
  | nil => contradiction
  | cons y rest => rfl

/-- Any first symbol's text stands first. -/
theorem symText_prefix_renderOutput (x : Sym) (rest : List Sym) : symText x <+: renderOutput (x :: rest) := by
  cases rest with
  | nil => exact List.prefix_rfl
  | cons y rest => exact List.prefix_append _ _

/-- Two characters a symbol and one space fewer than symbols. -/
theorem renderOutput_length {out : List Sym} (h : out ≠ []) : (renderOutput out).length + 1 = 3 * out.length := by
  induction out with
  | nil => contradiction
  | cons x rest ih =>
    by_cases hr : rest = []
    · subst hr
      rfl
    · have hrest := ih hr
      simp only [renderOutput_cons_of_ne_nil x hr, List.length_append, List.length_cons, symText_length]
      omega

/-- Each symbol takes three characters with its space: dropping `3 * j` leaves the text of the symbols from `j` on. -/
theorem renderOutput_drop (out : List Sym) (j : Nat) : (renderOutput out).drop (3 * j) = renderOutput (out.drop j) := by
  induction j generalizing out with
  | zero => rfl
  | succ j ih =>
    match out with
    | [] => rfl
    | [x] => simp [renderOutput, symText, Nat.mul_succ]
    | x :: y :: rest => exact ih (y :: rest)

/-- Character `3 * j + k` of a result is character `k` of the text that begins with its symbol `j`. -/
theorem renderOutput_getElem? {out : List Sym} {j : Nat} (hj : j < out.length) (k : Nat) :
    (renderOutput out)[3 * j + k]? = (renderOutput (symAt out j :: out.drop (j + 1)))[k]? := by
  have hsym : symAt out j = out[j] := by simp [symAt, hj]
  rw [hsym, ← List.drop_eq_getElem_cons hj, ← renderOutput_drop, List.getElem?_drop]

/-- The two characters of symbol `j` stand at `3 * j` and `3 * j + 1`. -/
theorem renderOutput_symText {out : List Sym} {j k : Nat} (hj : j < out.length) (hk : k < 2) :
    (renderOutput out)[3 * j + k]? = (symText (symAt out j))[k]? := by
  obtain ⟨tail, htail⟩ := symText_prefix_renderOutput (symAt out j) (out.drop (j + 1))
  rw [renderOutput_getElem? hj, ← htail, List.getElem?_append_left hk]

/-- A space stands after every symbol but the last. -/
theorem renderOutput_space {out : List Sym} {j : Nat} (hj : j + 1 < out.length) :
    (renderOutput out)[3 * j + 2]? = some ' ' := by
  have hrest : out.drop (j + 1) ≠ [] := by simpa using hj
  rw [renderOutput_getElem? (Nat.lt_of_succ_lt hj), renderOutput_cons_of_ne_nil _ hrest]
  rfl

/-! What the pseudo-instructions expand to (R60, R61) -/

/-- A character of a binary string is '0' or '1', and the host maps it to D0 or D1 (R112). -/
theorem charCommand_of_binary {text : List Char} (hb : isBinary text = true) {c : Char} (hc : c ∈ text) :
    charCommand c = if c = '0' then .d0 else .d1 := by
  have hchar : c = '0' ∨ c = '1' := by simpa [isBinaryChar] using List.all_eq_true.mp hb c hc
  obtain rfl | rfl := hchar <;> rfl

theorem isBinary_eq_false_of_mem {text : List Char} {c : Char} (hc : c ∈ text) (h0 : c ≠ '0') (h1 : c ≠ '1') :
    isBinary text = false :=
  List.all_eq_false.mpr ⟨c, hc, by simp [isBinaryChar, h0, h1]⟩

theorem bits_expand_binary {text : List Char} (hb : isBinary text = true) :
    (AsmItem.bits text).expand = .ok (text.map fun c => commandInput (charCommand c)) := by
  simp [AsmItem.expand, hb]

theorem bits_expand_not_binary {text : List Char} (hb : isBinary text = false) :
    (AsmItem.bits text).expand = .error .notBinary := by
  simp [AsmItem.expand, hb]

/-- A call's cycles present START and then one command a character (R113). -/
theorem callInputs_eq (text : List Char) :
    callInputs text = commandInput .start :: text.map fun c => commandInput (charCommand c) := by
  simp [callInputs, callCommands]

/-! The obligations -/

/-- Settles O32: the port's code by the four codes, the register by `cycle_errQ`, the call by the loop's totality. -/
theorem invalidStateNeverRaised : Obligations.InvalidStateNeverRaised := by
  refine ⟨fun s => ?_, fun p s => ?_, encodeCallFrom_ne_invalidState 4, fun out => ?_⟩
  · obtain ⟨_, _, _, err, _, _⟩ := s
    cases err <;> rfl
  · obtain ⟨t, h⟩ := cycle_total p s
    exact ⟨t, h, cycle_errQ h⟩
  · exact ⟨readResult_failed (by decide) out, readResult_failed (by decide) out⟩

/-- Settles O55, by the place of each symbol's text and of each space. -/
theorem renderedText : Obligations.RenderedText := by
  refine ⟨rfl, fun out hne => ⟨renderOutput_length hne, fun j hj => ⟨?_, ?_, renderOutput_space⟩⟩⟩
  · exact renderOutput_symText (k := 0) hj (by decide)
  · exact renderOutput_symText (k := 1) hj (by decide)

/-- Settles O1: the decoder evaluated on its four words. -/
theorem commandMapDecodes : Obligations.CommandMapDecodes := ⟨rfl, rfl, rfl, rfl⟩

/-- Settles O2, by the class of the word. -/
theorem fieldsSelectCommand : Obligations.FieldsSelectCommand := by
  refine fun w => ⟨fun hdata => ?_, fun hctrl => ⟨?_, ?_⟩⟩
  · rw [decode_eq, hdata]
    cases w.getLsbD 0 <;> rfl
  · rw [decode_eq, hctrl]
    cases w.getLsbD 0 <;> rfl
  · rw [decode_eq, hctrl]
    rfl

/-- Settles O57, by whether the string is binary. -/
theorem bitsExpands : Obligations.BitsExpands := by
  refine ⟨rfl, fun text => ⟨fun hb => ?_, fun ⟨c, hc, h0, h1⟩ => ?_⟩⟩
  · rw [bits_expand_binary hb]
    exact congrArg Except.ok (List.map_congr_left fun c hc => congrArg commandInput (charCommand_of_binary hb hc))
  · exact bits_expand_not_binary (isBinary_eq_false_of_mem hc h0 h1)

/-- Settles O58: a call's cycles, with the host's character mapping written out. -/
theorem encodeExpands : Obligations.EncodeExpands :=
  ⟨fun text => congrArg Except.ok (callInputs_eq text), rfl⟩

end Sys2Proof.Machine
end

section
/-! PROOFS. The family Transition: the next symbol by position and bit, the lookback predicate, the history and counter
updates. -/

namespace Sys2Proof.Machine

/-! The next symbol by position and bit (R70 to R75) -/

/-- At position 0 the bit alone decides (R71). -/
@[simp] theorem nsym_pos_zero (x : Sym) (h : Hist) (b : Bool) : nsym x h 0 b = firstSym b := rfl

/-- After position 0 a bit 1 goes by the bit-1 table (R72). -/
theorem nsym_true {c : Pos} (hc : c ≠ 0) (x : Sym) (h : Hist) : nsym x h c true = nsymOne x := by
  simp [nsym, hc]

/-- Where the lookback does not hold, the next symbol is the naive rule's (R79). -/
theorem nsym_of_lb_false {h : Hist} {c : Pos} (hl : lb h c = false) (x : Sym) (b : Bool) :
    nsym x h c b = naiveNsym x c b := by
  simp [nsym, naiveNsym, hl]

/-- A bit 1 goes by the naive rule at every position: only the bit-0 rule consults the lookback (R74). -/
theorem nsym_true_eq_naiveNsym (x : Sym) (h : Hist) (c : Pos) : nsym x h c true = naiveNsym x c true := rfl

/-! The lookback predicate in both register forms (R74) -/

theorem lb_iff_bits (h : Hist) (c : Pos) :
    lb h c = true ↔ c = 4 ∧ h.getLsbD 0 = true ∧ h.getLsbD 1 = false ∧ h.getLsbD 2 = true := by
  simp [lb, and_assoc]

/-- The history register is 101 exactly when its bits are 1, 0, 1. -/
theorem hist_eq_101_iff (h : Hist) :
    h = 0b101#3 ↔ h.getLsbD 0 = true ∧ h.getLsbD 1 = false ∧ h.getLsbD 2 = true := by
  constructor
  · rintro rfl
    decide
  · rintro ⟨h0, h1, h2⟩
    exact hist_ext h0 h1 h2

theorem lb_iff_register (h : Hist) (c : Pos) : lb h c = true ↔ c = 4 ∧ h = 0b101#3 := by
  rw [lb_iff_bits, hist_eq_101_iff]

/-! The obligations -/

/-- Settles O5: `firstSym` of the two bits. -/
theorem initialSymbol : Obligations.InitialSymbol :=
  fun x h => ⟨nsym_pos_zero x h false, nsym_pos_zero x h true⟩

/-- Settles O6: after position 0 a bit 1 goes by `nsymOne`, whose four rows are the table. -/
theorem bitOneTable : Obligations.BitOneTable := by
  intro h c hc
  simp only [nsym_true hc]
  exact ⟨rfl, rfl, rfl, rfl⟩

/-- Settles O8: a bit 1, and every bit before position 4, goes by the naive rule, which has no history to read. -/
theorem lookbackPredicate : Obligations.LookbackPredicate := by
  refine ⟨fun h c => ⟨lb_iff_bits h c, lb_iff_register h c⟩, fun x h k c b hq => ?_⟩
  obtain rfl | hc := hq
  · rw [nsym_true_eq_naiveNsym, nsym_true_eq_naiveNsym]
  · rw [nsym_of_lb_false (lb_of_ne_four hc), nsym_of_lb_false (lb_of_ne_four hc)]

/-- Settles O9: the three bits of `nhist`. -/
theorem historyShifts : Obligations.HistoryShifts :=
  fun h b => ⟨nhist_zero h b, nhist_one h b, nhist_two h b⟩

/-- Settles O10: the five rows evaluated; `ncnt_val` and the bound of a position for the rest. -/
theorem counterSaturates : Obligations.CounterSaturates := by
  refine ⟨rfl, rfl, rfl, rfl, rfl, fun c => ⟨ncnt_val c, ?_⟩⟩
  have hc : c.val ≤ 4 := Nat.le_of_lt_succ c.isLt
  rw [Fin.le_def, ncnt_val]
  exact le_min (Nat.le_succ c.val) hc

end Sys2Proof.Machine
end

section
/-! PROOFS. The family Data: the data step with its registers written out, and the cases of D0 and D1. -/

namespace Sys2Proof.Machine

/-- D0 is the data step with bit 0 (R91). -/
theorem exec_d0 (s : State) : exec .d0 s = dataStep false s := rfl

/-- D1 is the data step with bit 1 (R92). -/
theorem exec_d1 (s : State) : exec .d1 s = dataStep true s := rfl

/-- The data step of a good run, its registers written out over given values of the symbol, history and counter registers
before the step (R90). -/
theorem dataStep_good_fields {b : Bool} {s : State} {x : Sym} {h : Hist} {c : Pos} (he : s.errQ = .none)
    (hx : s.symQ = x) (hh : s.histQ = h) (hc : s.cntQ = c) :
    dataStep b s = .next { s with symQ := nsym x h c b, histQ := nhist h b, cntQ := ncnt c, symValidQ := true } := by
  subst hx hh hc
  exact dataStep_good he

/-- After position 0 a bit 0 goes by the bit-0 rule with the lookback (R73). -/
theorem nsym_false {c : Pos} (hc : c ≠ 0) (x : Sym) (h : Hist) : nsym x h c false = nsymZero x (lb h c) := by
  simp [nsym, hc]

/-- From a symbol with a mid-bit level change the bit-1 table goes to the other one (R92). -/
theorem nsymOne_eq_not {x : Sym} (hx : x = 0b01#2 ∨ x = 0b10#2) : nsymOne x = ~~~x := by
  obtain rfl | rfl := hx <;> decide

/-! The obligations -/

/-- Settles O13, by whether the run has failed. -/
theorem dataStepEffect : Obligations.DataStepEffect := by
  refine fun s => ⟨exec_d0 s, exec_d1 s, fun b => ⟨fun he => ?_, fun he => ?_⟩⟩
  · exact ⟨_, dataStep_failed he, rfl, output_emitNone s⟩
  · exact ⟨_, dataStep_good he, output_emit _ _, rfl⟩

/-- Settles O14: the data step with bit 0, whose symbol is `firstSym`'s at position 0 and `nsymZero`'s after it. -/
theorem d0Effect : Obligations.D0Effect := by
  refine ⟨rfl, rfl, fun s he => ?failed, fun s he hc => ?first, fun s he hc => ?later, fun h c hc => lb_of_ne_four hc,
    fun s he hc hx hh => ?worked⟩
  case failed => exact (exec_d0 s).trans (dataStep_failed he)
  case first =>
    rw [exec_d0, dataStep_good_fields he rfl rfl hc]
    rfl
  case later =>
    rw [exec_d0, dataStep_good_fields he rfl rfl rfl, nsym_false hc]
    rfl
  case worked =>
    rw [exec_d0, dataStep_good_fields he hx hh hc]
    rfl

/-- Settles O15: the data step with bit 1, whose symbol is `firstSym`'s at position 0 and `nsymOne`'s after it. -/
theorem d1Effect : Obligations.D1Effect := by
  refine ⟨rfl, rfl, fun s he => ?failed, fun s he hc => ?first, fun s he hc => ?later, fun s he hc hx => ?alternates,
    fun s he hc => ?saturates, fun s he hc hx hh => ?worked⟩
  case failed => exact (exec_d1 s).trans (dataStep_failed he)
  case first =>
    rw [exec_d1, dataStep_good_fields he rfl rfl hc]
    rfl
  case later =>
    rw [exec_d1, dataStep_good_fields he rfl rfl rfl, nsym_true hc]
    rfl
  case alternates => exact ⟨_, dataStep_good he, (nsym_true hc _ _).trans (nsymOne_eq_not hx)⟩
  case saturates => exact ⟨_, dataStep_good_fields he rfl rfl hc, rfl⟩
  case worked =>
    rw [exec_d1, dataStep_good_fields he hx hh hc]
    rfl

end Sys2Proof.Machine
end

section
/-! PROOFS. The family Control: START and BAD with the results of the runs they end, the idle step, and the priority of
the step function. -/

namespace Sys2Proof.Machine

/-! Beginning a run (R100) -/

/-- A run begun again is unchanged: none of the registers it writes depends on the state. -/
@[simp] theorem beginRun_beginRun (s : State) : beginRun (beginRun s) = beginRun s := rfl

/-- A run just begun reads as Ok of what it has emitted, which is nothing (R128). -/
theorem readResult_beginRun (s : State) (out : List Sym) : readResult (beginRun s).ports.err out = .ok out := rfl

/-- A run just begun holds the registers of a run without data bits, whose encoding is empty (R32, R110, R111). -/
theorem tracks_beginRun (s : State) : (beginRun s).Tracks .empty where
  cnt := rfl
  hist _ _ := BitVec.getLsbD_zero
  sym := rfl
  encoded := rfl
  err := .inl rfl
  failed _ := rfl

/-! Failing a run (R101, R131) -/

/-- BAD is dispatched to its meaning (R101). -/
theorem exec_bad (s : State) : exec .bad s = execBad s := rfl

/-- A run failed by BAD shows INVALID_INPUT on the error port (R56). -/
theorem ports_err_raiseInvalidInput (s : State) : (raiseInvalidInput s).ports.err = 0b01#2 := rfl

/-- A run failed by BAD reads as InvalidInput, whatever it has emitted (R128, R136). -/
theorem readResult_raiseInvalidInput (s : State) (out : List Sym) :
    readResult (raiseInvalidInput s).ports.err out = .error .invalidInput := by
  rw [ports_err_raiseInvalidInput]
  exact readResult_failed (by decide) out

/-- The data step after a BAD does nothing but keep the valid flag clear (R90). -/
theorem dataStep_raiseInvalidInput (b : Bool) (s : State) :
    dataStep b (raiseInvalidInput s) = .next (emitNone (raiseInvalidInput s)) :=
  dataStep_failed (by simp)

/-! The obligations -/

/-- Settles O18: START is `beginRun`; the encoding of a good run's bits is what `Tracks` says of its symbols. -/
theorem startEffect : Obligations.StartEffect := by
  refine ⟨rfl, rfl, fun s => ?effect, fun s _ _ hx _ => ?worked, fun s v ht _ => ?result⟩
  case effect =>
    refine ⟨beginRun s, exec_start s, output_beginRun s, beginRun_eq_reset s, rfl, ?_, readResult_beginRun s []⟩
    rw [exec_start, beginRun_beginRun]
  case worked =>
    rw [exec_start, hx]
    rfl
  case result => exact ⟨ht.encoded, beginRun s, exec_start s, tracks_beginRun s⟩

/-- Settles O19, by whether the run has failed already. -/
theorem badEffect : Obligations.BadEffect := by
  refine ⟨rfl, rfl, fun s he => ?good, fun s he => ?failed, fun s he _ _ => ?worked, encodeCallFrom_not_binary rfl⟩
  case good =>
    exact ⟨_, (exec_bad s).trans (execBad_good he), output_raiseInvalidInput s, rfl, readResult_raiseInvalidInput s⟩
  case failed => exact ⟨_, (exec_bad s).trans (execBad_failed he), output_emitNone s, rfl⟩
  case worked =>
    exact ⟨_, _, (exec_bad s).trans (execBad_good he), ports_err_raiseInvalidInput s, output_raiseInvalidInput s,
      (exec_d0 _).trans (dataStep_raiseInvalidInput false s), output_emitNone _⟩

/-- Settles O20: a cycle that presents no command is `emitNone`, which keeps the symbol register. -/
theorem idleEffect : Obligations.IdleEffect :=
  fun s _ => ⟨emitNone s, cycle_idle rfl rfl, rfl, output_emitNone s, emitNone_symQ s⟩

/-- Settles O21, by the kind of the cycle: reset, idle, or the command of one of the four words. -/
theorem stepPriority : Obligations.StepPriority := by
  refine ⟨fun s v w => ?reset, fun s w => cycle_idle rfl rfl, fun s => ⟨?start, ?bad, ?d0, ?d1⟩, cycle_total⟩
  case reset => rw [cycle_beginsRun rfl, beginRun_eq_reset]
  case start => exact (cycle_beginsRun rfl).trans (exec_start s).symm
  case bad => exact cycle_bad rfl
  case d0 => exact cycle_dataBit rfl
  case d1 => exact cycle_dataBit rfl

end Sys2Proof.Machine
end

section
/-! PROOFS. The family Encode call: the symbol the reference function gives at each position, the two sequences of the
visualization, the host's character mapping, and the result of one run. -/

namespace Sys2Proof.Machine

/-! The body of the reference loop, by position and bit (R111): the block's own next-symbol functions -/

/-- The bit alone decides the first symbol. -/
@[simp] theorem refSymbol_zero (m : Nat) (text : List Char) (out : List Sym) :
    refSymbol m text 0 out = some (firstSym (bitAt text 0)) := rfl

theorem refSymbol_of_bit {m : Nat} {text : List Char} {i : Nat} (hi : i ≠ 0) (hb : bitAt text i = true)
    (out : List Sym) : refSymbol m text i out = some (nsymOne (symAt out (i - 1))) := by
  obtain h | h | h | h := sym_cases (symAt out (i - 1)) <;> simp [refSymbol, nsymOne, hi, hb, h]

theorem refSymbol_of_not_bit {m : Nat} {text : List Char} {i : Nat} (hi : i ≠ 0) (hb : bitAt text i = false)
    (out : List Sym) : refSymbol m text i out = some (nsymZero (symAt out (i - 1)) (lookbackAt m text i)) := by
  obtain h | h | h | h := sym_cases (symAt out (i - 1)) <;> cases hl : lookbackAt m text i <;>
    simp [refSymbol, nsymZero, hi, hb, h, hl]

/-- Of the symbols before it, the body reads only the one at the position just before. -/
theorem refSymbol_congr {m : Nat} {text : List Char} {i : Nat} {out out' : List Sym}
    (h : i ≠ 0 → symAt out (i - 1) = symAt out' (i - 1)) : refSymbol m text i out = refSymbol m text i out' := by
  by_cases hi : i = 0
  · subst hi
    rfl
  · simp only [refSymbol, h hi]

/-! The output of the loop, position by position -/

theorem symAt_append_left {out : List Sym} {i : Nat} (hi : i < out.length) (more : List Sym) :
    symAt (out ++ more) i = symAt out i := by
  simp [symAt, List.getElem?_append_left hi]

theorem symAt_append_length (out : List Sym) (x : Sym) : symAt (out ++ [x]) out.length = x := by
  simp [symAt]

theorem getElem?_eq_some_symAt {out : List Sym} {i : Nat} (hi : i < out.length) : out[i]? = some (symAt out i) := by
  simp [symAt, hi]

theorem refOutput_length {m : Nat} {text : List Char} {n : Nat} {out : List Sym}
    (h : refOutput m text n = some out) : out.length = n := by
  obtain ⟨out', h', hl⟩ := refOutput_some m text n
  obtain rfl : out = out' := Option.some.inj (h.symm.trans h')
  exact hl

/-- A turn of the loop adds one symbol, the body's, to those of the turns before it. -/
theorem refOutput_succ_inv {m : Nat} {text : List Char} {n : Nat} {out : List Sym}
    (h : refOutput m text (n + 1) = some out) :
    ∃ pre o, refOutput m text n = some pre ∧ refSymbol m text n pre = some o ∧ out = pre ++ [o] := by
  obtain ⟨pre, hpre, -⟩ := refOutput_some m text n
  obtain ⟨o, ho⟩ := refSymbol_some m text n pre
  exact ⟨pre, o, hpre, ho, Option.some.inj (h.symm.trans (refOutput_succ hpre ho))⟩

/-- Every symbol of the loop's output is the body's at its position, read against the whole output. -/
theorem refOutput_symAt {m : Nat} {text : List Char} {n i : Nat} {out : List Sym}
    (h : refOutput m text n = some out) (hi : i < n) : refSymbol m text i out = some (symAt out i) := by
  induction n generalizing out with
  | zero => contradiction
  | succ n ih =>
    obtain ⟨pre, o, hpre, ho, rfl⟩ := refOutput_succ_inv h
    have hlen : pre.length = n := refOutput_length hpre
    have hread : refSymbol m text i (pre ++ [o]) = refSymbol m text i pre :=
      refSymbol_congr fun _ => symAt_append_left (by omega) [o]
    rw [hread]
    obtain hlt | rfl := Nat.lt_succ_iff_lt_or_eq.mp hi
    · rw [ih hpre hlt, symAt_append_left (by omega)]
    · rw [ho, ← hlen, symAt_append_length]

/-! The output of a call (R111) -/

section Call
variable {text : List Char} {out : List Sym}

theorem encodeCall_length (h : encodeCall text = .ok out) : out.length = text.length :=
  refOutput_length (refOutput_of_encodeCall h).2

theorem encodeCall_isBinary (h : encodeCall text = .ok out) : isBinary text = true := (refOutput_of_encodeCall h).1

/-- Every symbol of a call's output is the loop body's at its position. -/
theorem encodeCall_refSymbol (h : encodeCall text = .ok out) {i : Nat} (hi : i < text.length) :
    refSymbol 4 text i out = some (symAt out i) :=
  refOutput_symAt (refOutput_of_encodeCall h).2 hi

theorem encodeCall_symAt_zero (h : encodeCall text = .ok out) (hne : 0 < text.length) :
    symAt out 0 = firstSym (bitAt text 0) :=
  (Option.some.inj (encodeCall_refSymbol h hne)).symm

theorem encodeCall_symAt_of_bit (h : encodeCall text = .ok out) {i : Nat} (hi : i < text.length) (h0 : i ≠ 0)
    (hb : bitAt text i = true) : symAt out i = nsymOne (symAt out (i - 1)) :=
  Option.some.inj ((encodeCall_refSymbol h hi).symm.trans (refSymbol_of_bit h0 hb out))

theorem encodeCall_symAt_of_not_bit (h : encodeCall text = .ok out) {i : Nat} (hi : i < text.length) (h0 : i ≠ 0)
    (hb : bitAt text i = false) : symAt out i = nsymZero (symAt out (i - 1)) (lookbackAt 4 text i) :=
  Option.some.inj ((encodeCall_refSymbol h hi).symm.trans (refSymbol_of_not_bit h0 hb out))

end Call

/-! The lookback condition (R111, R120) -/

theorem isBinaryChar_iff (c : Char) : isBinaryChar c = true ↔ c = '0' ∨ c = '1' := by simp [isBinaryChar]

/-- In a binary string a character that is not '1' is '0'. -/
theorem getElem?_eq_zero_of_not_bit {text : List Char} {i : Nat} (hb : isBinary text = true) (hi : i < text.length)
    (h : bitAt text i = false) : text[i]? = some '0' := by
  have hchar : text[i] = '0' ∨ text[i] = '1' :=
    (isBinaryChar_iff _).mp (List.all_eq_true.mp hb _ (List.getElem_mem hi))
  have hne : text[i] ≠ '1' := by simpa [bitAt, hi] using h
  rw [List.getElem?_eq_getElem hi, hchar.resolve_right hne]

theorem lookbackAt_of_lt {m : Nat} {i : Nat} (hi : i < m) (text : List Char) : lookbackAt m text i = false := by
  simp [lookbackAt, Nat.not_le.mpr hi]

/-- In a binary string the lookback holds after the bits 1, 0, 1. -/
theorem lookbackAt_of_bits {m : Nat} {text : List Char} {i : Nat} (hb : isBinary text = true) (hi : i < text.length)
    (hm : m ≤ i) (h3 : bitAt text (i - 3) = true) (h2 : bitAt text (i - 2) = false) (h1 : bitAt text (i - 1) = true) :
    lookbackAt m text i = true := by
  have hzero : text[i - 2]? = some '0' := getElem?_eq_zero_of_not_bit hb (by omega) h2
  simp only [bitAt] at h1 h3
  simp [lookbackAt, hm, h1, h3, hzero]

/-- Under the lookback the bit-0 rule gives 11 (R73). -/
@[simp] theorem nsymZero_lookback (x : Sym) : nsymZero x true = 0b11#2 := by simp [nsymZero]

/-! Sequences with two entries an element (R118) -/

section Pairs
variable {α β : Type} (f g : α → β)

theorem length_flatMap_pair (l : List α) : (l.flatMap fun x => [f x, g x]).length = 2 * l.length := by
  simp [List.length_flatMap, Nat.mul_comm]

/-- Element `j` stands at `2 * j` and `2 * j + 1`. -/
theorem getElem?_flatMap_pair {l : List α} {j : Nat} {x : α} (h : l[j]? = some x) :
    (l.flatMap fun x => [f x, g x])[2 * j]? = some (f x) ∧
    (l.flatMap fun x => [f x, g x])[2 * j + 1]? = some (g x) := by
  induction l generalizing j with
  | nil => simp at h
  | cons y l ih =>
    cases j with
    | zero =>
      obtain rfl : y = x := by simpa using h
      exact ⟨rfl, rfl⟩
    | succ j => exact ih (j := j) (by simpa using h)

end Pairs

theorem bitAt_eq_of_getElem? {text : List Char} {i : Nat} {c : Char} (h : text[i]? = some c) :
    bitAt text i = (c == '1') := by
  simp [bitAt, h]

/-! The data commands of a good run (R116) -/

/-- A cycle that presents a command has that command's data bit (R53). -/
theorem commandInput_dataBit (i : Instr) : (commandInput i).dataBit = dataBit i := by
  cases i <;> rfl

/-- Data cycles of a good run keep it good and emit one symbol each. -/
theorem play_dataBits {ps : List PortIn} {s : State} (hd : ∀ p ∈ ps, ∃ b, p.dataBit = some b) (he : s.errQ = .none) :
    ∃ t outs, play ps s = .next (t, outs) ∧ (sampled outs).length = ps.length ∧ t.errQ = .none := by
  induction ps generalizing s with
  | nil => exact ⟨s, [], play_nil s, rfl, he⟩
  | cons p ps ih =>
    obtain ⟨⟨b, hb⟩, hrest⟩ := List.forall_mem_cons.mp hd
    obtain ⟨u, outs, hu, hlen, hue⟩ := ih (s := emit (nsym s.symQ s.histQ s.cntQ b) (consumeBit b s)) hrest he
    refine ⟨u, _, play_cons ((cycle_dataBit hb).trans (dataStep_good he)) hu, ?_, hue⟩
    simp [sampled_cons, hlen]

/-! The cycles of one run, and its result (R110, R128) -/

/-- Playing over a first cycle is that cycle and the rest. -/
theorem play_cons_inv {p : PortIn} {ps : List PortIn} {s u : State} {outs : List PortOut}
    (h : play (p :: ps) s = .next (u, outs)) :
    ∃ t outs', cycle p s = .next t ∧ play ps t = .next (u, outs') ∧ outs = t.ports :: outs' := by
  obtain ⟨t, ht⟩ := cycle_total p s
  obtain ⟨u', outs', hu, -⟩ := play_total_setInputs ps t t.inputs
  cases h.symm.trans (play_cons ht hu)
  exact ⟨t, outs', ht, hu, rfl⟩

/-- What every cycle keeps, any list of cycles keeps. -/
theorem play_keeps {P : State → Prop} (hcycle : ∀ {p s t}, P s → cycle p s = .next t → P t) {ps : List PortIn}
    {s u : State} {outs : List PortOut} (hs : P s) (h : play ps s = .next (u, outs)) : P u := by
  induction ps generalizing s outs with
  | nil =>
    cases h
    exact hs
  | cons p ps ih =>
    obtain ⟨t, outs', ht, hu, -⟩ := play_cons_inv h
    exact ih (hcycle hs ht) hu

/-- Only NONE and INVALID_INPUT are ever written to the error register (R132). -/
theorem cycle_keeps_err_written {p : PortIn} {s t : State} (hs : s.errQ = .none ∨ s.errQ = .invalidInput)
    (h : cycle p s = .next t) : t.errQ = .none ∨ t.errQ = .invalidInput := by
  obtain he | he | ⟨he, -⟩ := cycle_errQ h
  · exact he ▸ hs
  · exact .inl he
  · exact .inr he

/-- The result a host reads from the error port (R128). -/
theorem readResult_ports (s : State) (out : List Sym) :
    readResult s.ports.err out = if s.errQ = .none then .ok out else .error .invalidInput := by
  obtain ⟨_, _, _, err, _, _⟩ := s
  cases err <;> rfl

/-- A cycle that begins no run adds what it emits to the run in progress. -/
theorem runResults_cons_of_not_beginsRun {p : PortIn} {s t : State} (hb : p.beginsRun = false)
    (h : cycle p s = .next t) (ps : List PortIn) (out : List Sym) :
    runResults (p :: ps) s out = runResults ps t (out ++ t.output.toList) := by
  simp [runResults, h, hb]

/-- A cycle that begins a run reads off the result of the one in progress. -/
theorem runResults_cons_of_beginsRun {p : PortIn} {ps : List PortIn} {s : State} {rs : List CallResult}
    (hb : p.beginsRun = true) (h : runResults ps (beginRun s) [] = .next rs) (out : List Sym) :
    runResults (p :: ps) s out = .next (readResult s.ports.err out :: rs) := by
  simp [runResults, cycle_beginsRun hb, hb, h]

/-- Over cycles that begin no run there is one result, the one read at their end. -/
theorem runResults_of_not_beginsRun {ps : List PortIn} {s t : State} {outs : List PortOut}
    (hb : ∀ p ∈ ps, p.beginsRun = false) (h : play ps s = .next (t, outs)) (out : List Sym) :
    runResults ps s out = .next [readResult t.ports.err (out ++ sampled outs)] := by
  induction ps generalizing s outs out with
  | nil =>
    cases h
    rw [sampled_nil, List.append_nil]
    rfl
  | cons p ps ih =>
    obtain ⟨hp, hps⟩ := List.forall_mem_cons.mp hb
    obtain ⟨u, outs', hu, hrest, rfl⟩ := play_cons_inv h
    rw [runResults_cons_of_not_beginsRun hp hu, ih hps hrest, sampled_cons, List.append_assoc]

/-- The ports a run begins with show no symbol. -/
@[simp] theorem sampled_reset_cons (outs : List PortOut) : sampled (State.reset.ports :: outs) = sampled outs := rfl

/-! The obligations -/

/-- Settles O44: the loop's output has one symbol a turn, and each data command of a good run emits one. -/
theorem oneSymbolPerBit : Obligations.OneSymbolPerBit := by
  refine ⟨fun text out h => encodeCall_length h, fun is s hdata he => ?_⟩
  have hbits : ∀ p ∈ is.map commandInput, ∃ b, p.dataBit = some b := by
    intro p hp
    obtain ⟨i, hi, rfl⟩ := List.mem_map.mp hp
    rw [commandInput_dataBit]
    obtain rfl | rfl := hdata i hi
    · exact ⟨false, rfl⟩
    · exact ⟨true, rfl⟩
  simpa using play_dataBits hbits he

/-- Settles O45: the symbol at position 0 is `firstSym` of the first bit. -/
theorem alphabetAndFirstSymbol : Obligations.AlphabetAndFirstSymbol := by
  intro text out h
  have hfirst {c : Char} (hc : text[0]? = some c) : out[0]? = some (firstSym (c == '1')) := by
    have hne : 0 < text.length := (List.getElem?_eq_some_iff.mp hc).1
    rw [getElem?_eq_some_symAt (by rwa [encodeCall_length h]), encodeCall_symAt_zero h hne, bitAt_eq_of_getElem? hc]
  exact ⟨fun x _ => sym_cases x, fun hc => hfirst hc, fun hc => hfirst hc⟩

/-- Settles O47: a 0 after position 0 goes by the bit-0 rule, whose lookback holds after 1, 0, 1 from position 4 on and
never before it. -/
theorem lookbackTrigger : Obligations.LookbackTrigger := by
  refine fun text out i h hi hb => ⟨fun h4 b3 b2 b1 => ?_, fun h1 h3 => ?_⟩
  · have hl : lookbackAt 4 text i = true := lookbackAt_of_bits (encodeCall_isBinary h) hi h4 b3 b2 b1
    rw [encodeCall_symAt_of_not_bit h hi (by omega) hb, hl, nsymZero_lookback]
  · have hl : lookbackAt 4 text i = false := lookbackAt_of_lt (by omega) text
    rw [encodeCall_symAt_of_not_bit h hi (by omega) hb, hl]

/-- Settles O54: both sequences have two entries an element. -/
theorem visualizationSequences : Obligations.VisualizationSequences := by
  intro text out h
  have hlen : out.length = text.length := encodeCall_length h
  refine ⟨hlen ▸ length_flatMap_pair _ _ out, length_flatMap_pair _ _ text, fun j hj => ?_⟩
  have hchar : text[j]? = some text[j] := List.getElem?_eq_getElem hj
  have hsym : out[j]? = some (symAt out j) := getElem?_eq_some_symAt (hlen ▸ hj)
  obtain ⟨hbit, hbit'⟩ := getElem?_flatMap_pair (· == '1') (· == '1') hchar
  obtain ⟨hlevel, hlevel'⟩ := getElem?_flatMap_pair (fun x : Sym => x.getLsbD 1) (fun x => x.getLsbD 0) hsym
  rw [bitAt_eq_of_getElem? hchar]
  exact ⟨hbit, hbit', hlevel, hlevel'⟩

/-- Settles O56: the first cycle ends the run in progress and begins one, whose only result is read at the end. -/
theorem resultOfRun : Obligations.ResultOfRun := by
  intro p ps s out hp hps
  obtain ⟨t, outs, ht, -⟩ := play_total_setInputs ps (beginRun s) s.inputs
  refine ⟨t, State.reset.ports :: outs, play_cons_beginsRun hp ht, ?_, ?_⟩
  · exact play_keeps cycle_keeps_err_written (.inl (beginRun_errQ s)) ht
  · rw [runResults_cons_of_beginsRun hp (runResults_of_not_beginsRun hps ht []), List.nil_append, sampled_reset_cons,
      readResult_ports t]

/-- Settles O42: the three cases of the mapping. -/
theorem characterMapping : Obligations.CharacterMapping :=
  ⟨rfl, rfl, fun c h0 h1 => by simp [charCommand, h0, h1]⟩

/-- Settles O43: the call is START alone, which leaves the registers of a run just begun. -/
theorem emptyInputIsValid : Obligations.EmptyInputIsValid :=
  ⟨rfl, fun s => ⟨beginRun s, [State.reset.ports], play_cons_beginsRun rfl (play_nil _), rfl, rfl, beginRun_errQ s,
    readResult_beginRun s []⟩⟩

end Sys2Proof.Machine
end

section
/-! PROOFS. The family Exceptions: what raises InvalidInput, what a failed run does in each cycle, and what ends it. -/

namespace Sys2Proof.Machine

/-! Entry into the failed state (R131) -/

/-- Every command but BAD leaves a good run good. -/
theorem exec_keeps_good {i : Instr} {s : State} (hi : i ≠ .bad) (he : s.errQ = .none) :
    ∃ t, exec i s = .next t ∧ t.errQ = .none := by
  cases i with
  | d0 => exact ⟨_, (exec_d0 s).trans (dataStep_good he), he⟩
  | d1 => exact ⟨_, (exec_d1 s).trans (dataStep_good he), he⟩
  | bad => contradiction
  | start => exact ⟨_, exec_start s, beginRun_errQ s⟩

/-! The failed state (R134, R137) -/

/-- In a failed run a cycle that begins no run emits nothing and keeps the other registers. -/
theorem cycle_failed {p : PortIn} {s : State} (he : s.errQ ≠ .none) (hb : p.beginsRun = false) :
    cycle p s = .next (emitNone s) := by
  obtain ⟨hb', -⟩ | ⟨-, he', -⟩ | ⟨-, -, he', -⟩ | ⟨-, -, h⟩ := cycle_cases p s
  · simp [hb] at hb'
  · contradiction
  · contradiction
  · exact h

@[simp] theorem emitNone_emitNone (s : State) : emitNone (emitNone s) = emitNone s := rfl

/-- States that agree but for `sym_valid_q` agree in the other four registers. -/
theorem registers_eq_of_emitNone_eq {s t : State} (h : emitNone t = emitNone s) :
    t.errQ = s.errQ ∧ t.symQ = s.symQ ∧ t.histQ = s.histQ ∧ t.cntQ = s.cntQ :=
  ⟨(congrArg State.errQ h :), (congrArg State.symQ h :), (congrArg State.histQ h :), (congrArg State.cntQ h :)⟩

/-- Over any cycles that begin no run a failed run is silent, and its state stays the same but for `sym_valid_q`. -/
theorem play_failed {ps : List PortIn} {s : State} (he : s.errQ ≠ .none) (hb : ∀ p ∈ ps, p.beginsRun = false) :
    ∃ t outs, play ps s = .next (t, outs) ∧ sampled outs = [] ∧ emitNone t = emitNone s := by
  induction ps generalizing s with
  | nil => exact ⟨s, [], play_nil s, sampled_nil, rfl⟩
  | cons p ps ih =>
    obtain ⟨hp, hps⟩ := List.forall_mem_cons.mp hb
    obtain ⟨t, outs, ht, hsilent, hsame⟩ := ih (s := emitNone s) he hps
    refine ⟨t, _, play_cons (cycle_failed he hp) ht, ?_, hsame.trans (emitNone_emitNone s)⟩
    rw [sampled_cons, output_emitNone, hsilent]
    rfl

/-! The way out (R135) -/

/-- The cycles that begin a run are those with reset or START (R110). -/
theorem beginsRun_iff (p : PortIn) : p.beginsRun = true ↔ p.rst = true ∨ p.command = some .start := by
  simp [PortIn.beginsRun]

/-! The obligations -/

/-- Settles O30: each cycle is `emitNone`, and states that agree under it agree in all but `sym_valid_q`. -/
theorem failedRunIsSticky : Obligations.FailedRunIsSticky := by
  refine ⟨fun p s he hb => cycle_failed he hb, fun ps s he hb => ?_⟩
  obtain ⟨t, outs, ht, hsilent, hsame⟩ := play_failed he hb
  exact ⟨t, outs, ht, hsilent, registers_eq_of_emitNone_eq hsame⟩

/-- Settles O29, by whether the command is BAD. -/
theorem invalidInputRaisedOnlyByBad : Obligations.InvalidInputRaisedOnlyByBad := by
  intro i s he
  by_cases hi : i = .bad
  · subst hi
    exact ⟨raiseInvalidInput s, (exec_bad s).trans (execBad_good he), by simp,
      fun _ => ⟨rfl, output_raiseInvalidInput s⟩⟩
  · obtain ⟨t, ht, hgood⟩ := exec_keeps_good hi he
    exact ⟨t, ht, by simp [hgood, hi], fun hbad => absurd hbad hi⟩

/-- Settles O31, by whether the cycle begins a run. -/
theorem failedRunExit : Obligations.FailedRunExit := by
  intro p s he
  simp only [← beginsRun_iff]
  cases hb : p.beginsRun with
  | true => exact ⟨beginRun s, cycle_beginsRun hb, by simp, fun _ => beginRun_eq_reset s⟩
  | false => exact ⟨emitNone s, cycle_failed he hb, by simp [he], fun hrun => absurd hrun Bool.false_ne_true⟩

end Sys2Proof.Machine
end

section
/-! PROOFS. The family Reset and hazards: what a reset cycle leaves, whatever command it drops. -/

namespace Sys2Proof.Machine

/-- A cycle with reset begins a run, whatever command is presented with it (R110, R152). -/
theorem beginsRun_of_rst {p : PortIn} (h : p.rst = true) : p.beginsRun = true :=
  (beginsRun_iff p).mpr (.inl h)

/-- Settles O24: a reset cycle and START both leave the state `beginRun`, whose registers are the reset values. -/
theorem resetEffect : Obligations.ResetEffect :=
  fun s _ _ => ⟨beginRun s, cycle_beginsRun (beginsRun_of_rst rfl), output_beginRun s,
    beginRun_symQ s, beginRun_histQ s, beginRun_cntQ s, beginRun_errQ s, beginRun_symValidQ s, exec_start s⟩

end Sys2Proof.Machine
end

section
/-! PROOFS. The register invariants and the view of the run, kept by every cycle. -/

namespace Sys2Proof.Machine

/-! The reference function on a string and a longer one (R111, R122) -/

theorem bitAt_append_left {text : List Char} {i : Nat} (hi : i < text.length) (more : List Char) :
    bitAt (text ++ more) i = bitAt text i := by
  simp [bitAt, List.getElem?_append_left hi]

/-- The lookback reads only characters before its position. -/
theorem lookbackAt_append_left {m : Nat} {text : List Char} {i : Nat} (hi : i < text.length) (more : List Char) :
    lookbackAt m (text ++ more) i = lookbackAt m text i := by
  have hread (k : Nat) : (text ++ more)[i - k]? = text[i - k]? := List.getElem?_append_left (by omega)
  simp only [lookbackAt, hread]

theorem refSymbol_append_left {m : Nat} {text : List Char} {i : Nat} (hi : i < text.length) (more : List Char)
    (out : List Sym) : refSymbol m (text ++ more) i out = refSymbol m text i out := by
  simp only [refSymbol, bitAt_append_left hi, lookbackAt_append_left hi]

/-- The loop's turns over a string are its first turns over any longer string. -/
theorem refOutput_append_left {m : Nat} {text : List Char} {n : Nat} (hn : n ≤ text.length) (more : List Char) :
    refOutput m (text ++ more) n = refOutput m text n := by
  induction n with
  | zero => rfl
  | succ n ih => simp only [refOutput, ih (by omega), refSymbol_append_left (show n < text.length by omega)]

/-- One more binary character adds the symbol that the loop body gives for it. -/
theorem encodeCall_concat {text : List Char} {out : List Sym} {c : Char} {o : Sym} (h : encodeCall text = .ok out)
    (hc : isBinaryChar c = true) (ho : refSymbol 4 (text ++ [c]) text.length out = some o) :
    encodeCall (text ++ [c]) = .ok (out ++ [o]) := by
  obtain ⟨hb, hout⟩ := refOutput_of_encodeCall h
  have hbin : isBinary (text ++ [c]) = true := by simpa [isBinary, hc] using hb
  have hpre : refOutput 4 (text ++ [c]) text.length = some out := by rw [refOutput_append_left le_rfl, hout]
  refine encodeCallFrom_binary hbin ?_
  rw [List.length_append]
  exact refOutput_succ hpre ho

/-- In a binary string the lookback holds exactly after the bits 1, 0, 1 (R74, R111). -/
theorem lookbackAt_iff {m : Nat} {text : List Char} {i : Nat} (hb : isBinary text = true) (hi : i < text.length) :
    lookbackAt m text i = true ↔
      m ≤ i ∧ bitAt text (i - 1) = true ∧ bitAt text (i - 2) = false ∧ bitAt text (i - 3) = true := by
  refine ⟨fun h => ?_, fun ⟨hm, h1, h2, h3⟩ => lookbackAt_of_bits hb hi hm h3 h2 h1⟩
  obtain ⟨hm, ⟨h1, h2⟩, h3⟩ : m ≤ i ∧ (text[i - 1]? = some '1' ∧ text[i - 2]? = some '0') ∧ text[i - 3]? = some '1' := by
    simpa [lookbackAt] using h
  exact ⟨hm, bitAt_eq_of_getElem? h1, bitAt_eq_of_getElem? h2, bitAt_eq_of_getElem? h3⟩

/-! A string made of bits (R58) -/

theorem isBinaryChar_levelChar (b : Bool) : isBinaryChar (levelChar b) = true := by
  cases b <;> rfl

theorem isBinary_map_levelChar (bits : List Bool) : isBinary (bits.map levelChar) = true := by
  simp [isBinary, isBinaryChar_levelChar]

theorem bitAt_map_levelChar (bits : List Bool) (i : Nat) : bitAt (bits.map levelChar) i = bits.getD i false := by
  rw [List.getD_eq_getElem?_getD, bitAt, List.getElem?_map]
  obtain _ | _ | _ := bits[i]? <;> rfl

/-! The history update at every bit (R76) -/

theorem nhist_getLsbD_zero (h : Hist) (b : Bool) : (nhist h b).getLsbD 0 = b := nhist_zero h b

theorem nhist_getLsbD_succ (h : Hist) (b : Bool) {k : Nat} (hk : k + 1 < 3) :
    (nhist h b).getLsbD (k + 1) = h.getLsbD k := by
  obtain rfl | rfl : k = 0 ∨ k = 1 := by omega
  · exact nhist_one h b
  · exact nhist_two h b

/-! The register invariants (R32, R80) -/

section Inv
variable {s : State}

theorem inv_beginRun (s : State) : (beginRun s).Inv where
  fresh _ := ⟨rfl, rfl⟩
  first h := by cases h
  later h := by cases h
  unseen _ _ := BitVec.getLsbD_zero
  err := .inl rfl
  valid h := by cases h

theorem inv_takeInput (hs : s.Inv) : (takeInput s).Inv := ⟨hs.fresh, hs.first, hs.later, hs.unseen, hs.err, hs.valid⟩

theorem inv_emitNone (hs : s.Inv) : (emitNone s).Inv where
  fresh := hs.fresh
  first := hs.first
  later := hs.later
  unseen := hs.unseen
  err := hs.err
  valid h := by cases h

theorem inv_raiseInvalidInput (hs : s.Inv) : (raiseInvalidInput s).Inv where
  fresh := hs.fresh
  first := hs.first
  later := hs.later
  unseen := hs.unseen
  err := .inr rfl
  valid h := by cases h

/-- After position 0 a bit 1 gives a symbol with a mid-bit level change, a bit 0 a flat one (R72, R73). -/
theorem nsym_values {c : Pos} (hc : c ≠ 0) (x : Sym) (h : Hist) (b : Bool) :
    if b then nsym x h c b = 0b01#2 ∨ nsym x h c b = 0b10#2 else nsym x h c b = 0b00#2 ∨ nsym x h c b = 0b11#2 := by
  cases b with
  | true => simpa [nsym_true hc] using nsymOne_values x
  | false => simpa [nsym_false hc] using nsymZero_values x _

theorem inv_emit_consumeBit (hs : s.Inv) (he : s.errQ = .none) (b : Bool) :
    (emit (nsym s.symQ s.histQ s.cntQ b) (consumeBit b s)).Inv where
  fresh h := absurd h (ncnt_ne_zero s.cntQ)
  first h := by
    have hc : s.cntQ = 0 := ncnt_eq_one_iff.mp h
    simp only [emit_symQ, emit_histQ, consumeBit_histQ, nhist_getLsbD_zero, hc, nsym_pos_zero]
  later h := by
    have hc : s.cntQ ≠ 0 := by
      intro hc
      simp [hc] at h
    simpa only [emit_symQ, emit_histQ, consumeBit_histQ, nhist_getLsbD_zero] using nsym_values hc s.symQ s.histQ b
  unseen k hk := by
    have hk : min (s.cntQ.val + 1) 4 ≤ k := hk
    by_cases h3 : 3 ≤ k
    · exact BitVec.getLsbD_of_ge _ _ h3
    · obtain ⟨k, rfl⟩ : ∃ j, k = j + 1 := ⟨k - 1, by omega⟩
      exact (nhist_getLsbD_succ _ _ (by omega)).trans (hs.unseen k (by omega))
  err := .inl he
  valid _ := ⟨he, ncnt_ne_zero s.cntQ⟩

/-- Every cycle keeps the register invariants. -/
theorem cycle_keeps_inv {p : PortIn} {t : State} (hs : s.Inv) (h : cycle p s = .next t) : t.Inv := by
  obtain ⟨-, hc⟩ | ⟨-, he, b, -, hc⟩ | ⟨-, -, -, -, hc⟩ | ⟨-, -, hc⟩ := cycle_cases p s <;>
    obtain rfl := Host.Outcome.next.inj (h.symm.trans hc)
  · exact inv_beginRun s
  · exact inv_emit_consumeBit hs he b
  · exact inv_raiseInvalidInput hs
  · exact inv_emitNone hs

end Inv

/-! The registers of a run against its data bits and symbols (R23, R24, R32) -/

section Tracks
variable {s : State} {v : RunView}

theorem tracks_takeInput (hs : s.Tracks v) : (takeInput s).Tracks v :=
  ⟨hs.cnt, hs.hist, hs.sym, hs.encoded, hs.err, hs.failed⟩

theorem tracks_emitNone (hs : s.Tracks v) : (emitNone s).Tracks v where
  cnt := hs.cnt
  hist := hs.hist
  sym := hs.sym
  encoded := hs.encoded
  err := hs.err
  failed _ := rfl

theorem tracks_raiseInvalidInput (hs : s.Tracks v) : (raiseInvalidInput s).Tracks v where
  cnt := hs.cnt
  hist := hs.hist
  sym := hs.sym
  encoded := hs.encoded
  err := .inr rfl
  failed _ := rfl

theorem tracks_out_length (hs : s.Tracks v) : v.out.length = v.bits.length := by
  simpa using encodeCall_length hs.encoded

/-- The symbol register holds the reference's symbol at the last position. -/
theorem tracks_symQ (hs : s.Tracks v) : s.symQ = symAt v.out (v.bits.length - 1) := by
  rw [hs.sym, ← tracks_out_length hs, symAt, List.getLastD_eq_getLast?, List.getLast?_eq_getElem?]

/-- The counter is 0 before the first bit only. -/
theorem tracks_cntQ_eq_zero_iff (hs : s.Tracks v) : s.cntQ = 0 ↔ v.bits.length = 0 := by
  have hcnt := hs.cnt
  rw [Fin.ext_iff, Fin.val_zero]
  omega

theorem tracks_cntQ_eq_four_iff (hs : s.Tracks v) : s.cntQ = 4 ↔ 4 ≤ v.bits.length := by
  have hcnt := hs.cnt
  rw [Fin.ext_iff, show (4 : Pos).val = 4 from rfl]
  omega

/-- History bit `k` is the data bit `k` positions before the newest, also when more bits follow. -/
theorem tracks_histQ (hs : s.Tracks v) (b : Bool) {k : Nat} (hk : k < 3) (hlen : k < v.bits.length) :
    s.histQ.getLsbD k = bitAt ((v.bits ++ [b]).map levelChar) (v.bits.length - 1 - k) := by
  have hj : v.bits.length - 1 - k < v.bits.length := by omega
  rw [hs.hist k hk, bitAt_map_levelChar, List.getD_eq_getElem?_getD, List.getD_eq_getElem?_getD,
    List.getElem?_reverse hlen, List.getElem?_append_left hj]

/-- The lookback on the registers is the reference's on the string of the bits. -/
theorem tracks_lb (hs : s.Tracks v) (b : Bool) :
    lb s.histQ s.cntQ = lookbackAt 4 ((v.bits ++ [b]).map levelChar) v.bits.length := by
  rw [Bool.eq_iff_iff, lb_iff_bits, lookbackAt_iff (isBinary_map_levelChar _) (by simp), tracks_cntQ_eq_four_iff hs]
  refine and_congr_right fun h4 => ?_
  rw [tracks_histQ hs b (k := 0) (by omega) (by omega), tracks_histQ hs b (k := 1) (by omega) (by omega),
    tracks_histQ hs b (k := 2) (by omega) (by omega)]
  rfl

/-- The block's next symbol is the reference's for the next bit. -/
theorem tracks_refSymbol (hs : s.Tracks v) (b : Bool) :
    refSymbol 4 ((v.bits ++ [b]).map levelChar) v.bits.length v.out = some (nsym s.symQ s.histQ s.cntQ b) := by
  have hbit : bitAt ((v.bits ++ [b]).map levelChar) v.bits.length = b := by
    rw [bitAt_map_levelChar]
    simp
  by_cases h0 : v.bits.length = 0
  · rw [h0] at hbit ⊢
    rw [refSymbol_zero, hbit, (tracks_cntQ_eq_zero_iff hs).mpr h0, nsym_pos_zero]
  · have hc : s.cntQ ≠ 0 := mt (tracks_cntQ_eq_zero_iff hs).mp h0
    cases b with
    | true => rw [refSymbol_of_bit h0 hbit, nsym_true hc, tracks_symQ hs]
    | false => rw [refSymbol_of_not_bit h0 hbit, nsym_false hc, tracks_symQ hs, tracks_lb hs false]

/-- A data bit of a good run joins the view's bits, and its symbol the view's symbols. -/
theorem tracks_emit_consumeBit (hs : s.Tracks v) (he : s.errQ = .none) (b : Bool) :
    (emit (nsym s.symQ s.histQ s.cntQ b) (consumeBit b s)).Tracks
      ⟨v.bits ++ [b], v.out ++ [nsym s.symQ s.histQ s.cntQ b]⟩ where
  cnt := by
    have hcnt := hs.cnt
    simp only [emit_cntQ, consumeBit_cntQ, ncnt_val, List.length_append, List.length_singleton]
    omega
  hist k hk := by
    rw [emit_histQ, consumeBit_histQ, List.reverse_append]
    cases k with
    | zero => exact nhist_getLsbD_zero s.histQ b
    | succ k => exact (nhist_getLsbD_succ s.histQ b hk).trans (hs.hist k (by omega))
  sym := List.getLastD_concat.symm
  encoded := by
    have ho := tracks_refSymbol hs b
    rw [List.map_append] at ho ⊢
    exact encodeCall_concat hs.encoded (isBinaryChar_levelChar b) (by rwa [List.length_map])
  err := .inl he
  failed h := by
    rw [emit_errQ, consumeBit_errQ, he] at h
    cases h

/-- Every cycle keeps the agreement, for the view after it. -/
theorem cycle_keeps_tracks {p : PortIn} {t : State} (hs : s.Tracks v) (h : cycle p s = .next t) :
    t.Tracks (v.after p s t) := by
  obtain ⟨hb, hc⟩ | ⟨hb, he, b, hd, hc⟩ | ⟨hb, hd, he, -, hc⟩ | ⟨hb, hq, hc⟩ := cycle_cases p s <;>
    obtain rfl := Host.Outcome.next.inj (h.symm.trans hc)
  · simpa [RunView.after, hb] using tracks_beginRun s
  · simpa [RunView.after, hb, hd, he] using tracks_emit_consumeBit hs he b
  · simpa [RunView.after, hb, hd] using tracks_raiseInvalidInput hs
  · obtain he | ⟨hd, -⟩ := hq
    · simpa [RunView.after, hb, he] using tracks_emitNone hs
    · simpa [RunView.after, hb, hd] using tracks_emitNone hs

end Tracks

/-! The obligations -/

/-- Settles O33: a step is a cycle on the state without its next input, which the invariants do not read. -/
theorem stepKeepsRegisterInvariants : Obligations.StepKeepsRegisterInvariants :=
  fun _ _ hs h => cycle_keeps_inv (inv_takeInput hs) h

/-- Settles O34: a step is a cycle on the state without its next input, which the view does not read. -/
theorem stepKeepsRunView : Obligations.StepKeepsRunView :=
  fun s _ _ hs h => cycle_keeps_tracks (s := takeInput s) (tracks_takeInput hs) h

/-- Settles O35: the reset state is one in which a run begins. -/
theorem resetMeetsInvariants : Obligations.ResetMeetsInvariants :=
  ⟨inv_beginRun State.reset, tracks_beginRun State.reset⟩

end Sys2Proof.Machine
end

section
/-! PROOFS. Many cycles: steps over listed inputs, idle cycles, cycles that hold the symbol, what a fresh run reads, and the
results of calls. -/

namespace Sys2Proof.Machine

/-- Playing any cycles reaches a state. -/
theorem play_total (ps : List PortIn) (s : State) : ∃ t outs, play ps s = .next (t, outs) := by
  obtain ⟨t, outs, h, -⟩ := play_total_setInputs ps s s.inputs
  exact ⟨t, outs, h⟩

/-! Steps over listed inputs (R46; log entry 1) -/

/-- A step performs the first listed cycle and takes it off the list. -/
theorem step_of_inputs_cons {s : State} {p : PortIn} {rest : List PortIn} (h : s.inputs = p :: rest) :
    step s = cycle p { s with inputs := rest } := by
  simp [step, nextInput, takeInput, h]

/-- With nothing listed a step is an idle cycle. -/
theorem step_of_inputs_nil {s : State} (h : s.inputs = []) : step s = cycle idleInput s := by
  obtain ⟨_, _, _, _, _, _⟩ := s
  cases h
  rfl

/-- As many steps as cycles are listed play those cycles and leave the rest of the list. -/
theorem run_of_play {ps : List PortIn} {s t : State} {outs : List PortOut} (h : play ps s = .next (t, outs))
    (rest : List PortIn) :
    Host.Core.run core ps.length ({ s with inputs := ps ++ rest } : State) =
      .next ({ t with inputs := rest } : State) := by
  induction ps generalizing s outs with
  | nil =>
    cases h
    rfl
  | cons p ps ih =>
    obtain ⟨u, outs', hu, hrest, -⟩ := play_cons_inv h
    have hstep : step { s with inputs := p :: (ps ++ rest) } = .next { u with inputs := ps ++ rest } :=
      (step_of_inputs_cons rfl).trans (cycle_setInputs (s := s) (ps ++ rest) hu)
    exact (run_succ hstep).trans (ih hrest)

/-! Idle cycles (R102) -/

/-- No cycle reads `sym_valid_q`. -/
theorem cycle_emitNone (p : PortIn) (s : State) : cycle p (emitNone s) = cycle p s := by
  obtain hb | ⟨-, b, hd⟩ | ⟨-, -, hbad⟩ | ⟨-, -, hr, hidle⟩ := input_kinds p
  · rw [cycle_beginsRun hb, cycle_beginsRun hb]
    rfl
  · rw [cycle_dataBit hd, cycle_dataBit hd]
    rfl
  · rw [cycle_bad hbad, cycle_bad hbad]
    rfl
  · rw [cycle_idle hr hidle, cycle_idle hr hidle, emitNone_emitNone]

/-- Cycles played from a state with `sym_valid_q` cleared show the same ports as without, and end in the same registers
but for it. -/
theorem play_of_play_emitNone {ps : List PortIn} {s t : State} {outs : List PortOut}
    (h : play ps (emitNone s) = .next (t, outs)) :
    ∃ t', play ps s = .next (t', outs) ∧ emitNone t' = emitNone t := by
  cases ps with
  | nil =>
    cases h
    exact ⟨s, rfl, rfl⟩
  | cons p ps =>
    obtain ⟨u, outs', hu, hrest, rfl⟩ := play_cons_inv h
    exact ⟨t, play_cons ((cycle_emitNone p s).symm.trans hu) hrest, rfl⟩

/-- A cycle without reset and without a command presented is idle, whatever its `cmd`. -/
theorem cycle_of_not_presenting {p : PortIn} (h : (p.rst || p.cmdValid) = false) (s : State) :
    cycle p s = .next (emitNone s) := by
  obtain ⟨hr, hv⟩ := Bool.or_eq_false_iff.mp h
  exact cycle_idle hr (by simp [PortIn.command, hv])

/-- Leaving out the idle cycles keeps the emitted symbols, and the registers at the end but for `sym_valid_q`. -/
theorem play_filter_presenting (ps : List PortIn) (s : State) :
    ∃ t outs t' outs', play ps s = .next (t, outs) ∧
      play (ps.filter fun p => p.rst || p.cmdValid) s = .next (t', outs') ∧ sampled outs' = sampled outs ∧
      emitNone t' = emitNone t := by
  induction ps generalizing s with
  | nil => exact ⟨s, [], s, [], rfl, rfl, rfl, rfl⟩
  | cons p ps ih =>
    obtain ⟨u, hu⟩ := cycle_total p s
    obtain ⟨t, outs, t', outs', ht, ht', hsame, hregs⟩ := ih u
    cases hp : p.rst || p.cmdValid with
    | true =>
      rw [List.filter_cons, hp, if_pos rfl]
      exact ⟨t, _, t', _, play_cons hu ht, play_cons hu ht', by rw [sampled_cons, sampled_cons, hsame], hregs⟩
    | false =>
      rw [List.filter_cons, hp, if_neg Bool.false_ne_true]
      obtain rfl := Host.Outcome.next.inj (hu.symm.trans (cycle_of_not_presenting hp s))
      obtain ⟨t₁, ht₁, hregs₁⟩ := play_of_play_emitNone ht'
      refine ⟨t, _, t₁, outs', play_cons hu ht, ht₁, ?_, hregs₁.trans hregs⟩
      rw [sampled_cons, output_emitNone, hsame]
      rfl

/-! Cycles that hold the symbol (R155) -/

/-- A cycle that begins no run and consumes no bit keeps the symbol on its port, shows none as new, and keeps a failed run
failed. -/
theorem cycle_holds_sym {p : PortIn} {s : State} (hb : p.beginsRun = false) (hq : p.dataBit = none ∨ s.errQ ≠ .none) :
    ∃ t, cycle p s = .next t ∧ t.symQ = s.symQ ∧ t.symValidQ = false ∧ (s.errQ ≠ .none → t.errQ ≠ .none) := by
  obtain ⟨hb', -⟩ | ⟨-, he, b, hd, -⟩ | ⟨-, -, he, -, h⟩ | ⟨-, -, h⟩ := cycle_cases p s
  · simp [hb] at hb'
  · simp [hd, he] at hq
  · exact ⟨_, h, rfl, rfl, fun he' => absurd he he'⟩
  · exact ⟨_, h, rfl, rfl, id⟩

/-- Over such cycles the symbol stays on its port and none is shown as new. -/
theorem play_holds_sym {ps : List PortIn} {s : State}
    (h : ∀ p ∈ ps, p.beginsRun = false ∧ (p.dataBit = none ∨ s.errQ ≠ .none)) :
    ∃ t outs, play ps s = .next (t, outs) ∧ t.symQ = s.symQ ∧ ∀ o ∈ outs, o.sym = s.symQ ∧ o.symValid = false := by
  induction ps generalizing s with
  | nil => exact ⟨s, [], rfl, rfl, by simp⟩
  | cons p ps ih =>
    obtain ⟨⟨hb, hq⟩, hps⟩ := List.forall_mem_cons.mp h
    obtain ⟨u, hu, hsym, hvalid, hfailed⟩ := cycle_holds_sym hb hq
    obtain ⟨t, outs, ht, htsym, houts⟩ := ih fun p hp => (hps p hp).imp_right (Or.imp_right hfailed)
    rw [hsym] at htsym houts
    exact ⟨t, _, play_cons hu ht, htsym, List.forall_mem_cons.mpr ⟨⟨hsym, hvalid⟩, houts⟩⟩

/-- Ports that show no new symbol give a host nothing to sample. -/
theorem sampled_eq_nil {outs : List PortOut} (h : ∀ o ∈ outs, o.symValid = false) : sampled outs = [] :=
  List.filterMap_eq_nil_iff.mpr fun o ho => by simp [PortOut.sample, h o ho]

/-! What a run reads of the symbol and history it began with (R36) -/

/-- Two states whose runs have consumed as many bits, and which agree in the error code and in what these bits have
written of the symbol and history registers. -/
structure AgreeOnRun (s s' : State) : Prop where
  cnt : s'.cntQ = s.cntQ
  err : s'.errQ = s.errQ
  sym : s.cntQ ≠ 0 → s'.symQ = s.symQ
  hist : ∀ k, k < s.cntQ.val → s'.histQ.getLsbD k = s.histQ.getLsbD k

/-- The next symbol depends on those bits of the history only that the run has written. -/
theorem nsym_congr {x x' : Sym} {h h' : Hist} {c : Pos} (hx : c ≠ 0 → x' = x)
    (hh : ∀ k, k < c.val → h'.getLsbD k = h.getLsbD k) (b : Bool) : nsym x' h' c b = nsym x h c b := by
  by_cases h0 : c = 0
  · rw [h0, nsym_pos_zero, nsym_pos_zero]
  · rw [hx h0]
    by_cases h4 : c = 4
    · subst h4
      rw [hist_ext (hh 0 (by decide)) (hh 1 (by decide)) (hh 2 (by decide))]
    · rw [nsym_of_lb_false (lb_of_ne_four h4), nsym_of_lb_false (lb_of_ne_four h4)]

section AgreeOnRun
variable {s s' : State}

theorem agreeOnRun_beginRun (s s' : State) : AgreeOnRun (beginRun s) (beginRun s') := ⟨rfl, rfl, fun _ => rfl, fun _ _ => rfl⟩

theorem agreeOnRun_emitNone (h : AgreeOnRun s s') : AgreeOnRun (emitNone s) (emitNone s') := ⟨h.cnt, h.err, h.sym, h.hist⟩

theorem agreeOnRun_raiseInvalidInput (h : AgreeOnRun s s') :
    AgreeOnRun (raiseInvalidInput s) (raiseInvalidInput s') := ⟨h.cnt, rfl, h.sym, h.hist⟩

theorem agreeOnRun_emit_consumeBit (h : AgreeOnRun s s') (x : Sym) (b : Bool) :
    AgreeOnRun (emit x (consumeBit b s)) (emit x (consumeBit b s')) where
  cnt := congrArg ncnt h.cnt
  err := h.err
  sym _ := rfl
  hist k hk := by
    have hk : k < min (s.cntQ.val + 1) 4 := hk
    simp only [emit_histQ, consumeBit_histQ]
    cases k with
    | zero => rw [nhist_getLsbD_zero, nhist_getLsbD_zero]
    | succ k =>
      by_cases h3 : k + 1 < 3
      · rw [nhist_getLsbD_succ _ _ h3, nhist_getLsbD_succ _ _ h3, h.hist k (by omega)]
      · rw [BitVec.getLsbD_of_ge _ _ (not_lt.mp h3), BitVec.getLsbD_of_ge _ _ (not_lt.mp h3)]

/-- From states that agree on the run, a cycle leads to such states, with the same output event and valid flag. -/
theorem cycle_keeps_agreeOnRun (h : AgreeOnRun s s') (p : PortIn) :
    ∃ t t', cycle p s = .next t ∧ cycle p s' = .next t' ∧ AgreeOnRun t t' ∧ t'.output = t.output ∧
      t'.symValidQ = t.symValidQ := by
  obtain ⟨hb, hc⟩ | ⟨-, he, b, hd, hc⟩ | ⟨-, -, he, hbad, hc⟩ | ⟨hb, hq, hc⟩ := cycle_cases p s
  · exact ⟨_, _, hc, cycle_beginsRun hb, agreeOnRun_beginRun s s', rfl, rfl⟩
  · refine ⟨_, _, hc, (cycle_dataBit hd).trans (dataStep_good (h.err.trans he)), ?_⟩
    rw [h.cnt, nsym_congr h.sym h.hist]
    exact ⟨agreeOnRun_emit_consumeBit h _ b, rfl, rfl⟩
  · exact ⟨_, _, hc, (cycle_bad hbad).trans (execBad_good (h.err.trans he)), agreeOnRun_raiseInvalidInput h, rfl, rfl⟩
  · refine ⟨_, _, hc, ?_, agreeOnRun_emitNone h, rfl, rfl⟩
    obtain he | ⟨-, hidle⟩ := hq
    · exact cycle_failed (h.err ▸ he) hb
    · exact cycle_idle (Bool.or_eq_false_iff.mp hb).1 hidle

/-- From states that agree on the run, the same cycles show the same symbols, error codes and valid flags. -/
theorem play_of_agreeOnRun (h : AgreeOnRun s s') (ps : List PortIn) :
    ∃ t outs t' outs', play ps s = .next (t, outs) ∧ play ps s' = .next (t', outs') ∧ sampled outs' = sampled outs ∧
      outs'.map PortOut.err = outs.map PortOut.err ∧ outs'.map PortOut.symValid = outs.map PortOut.symValid := by
  induction ps generalizing s s' with
  | nil => exact ⟨s, [], s', [], rfl, rfl, rfl, rfl, rfl⟩
  | cons p ps ih =>
    obtain ⟨u, u', hu, hu', hagree, hout, hvalid⟩ := cycle_keeps_agreeOnRun h p
    obtain ⟨t, outs, t', outs', ht, ht', hsame, herr, hvalids⟩ := ih hagree
    refine ⟨t, _, t', _, play_cons hu ht, play_cons hu' ht', ?_, ?_, ?_⟩
    · rw [sampled_cons, sampled_cons, hout, hsame]
    · rw [List.map_cons, List.map_cons, herr, State.ports, State.ports, hagree.err]
    · rw [List.map_cons, List.map_cons, hvalids, State.ports, State.ports, hvalid]

end AgreeOnRun

/-! The result of a call (R113) -/

section Run
variable {ps : List PortIn} {s t : State} {outs : List PortOut}

/-- Over cycles that begin no run, a run is failed at the end if it was before or if BAD was among them. -/
theorem play_fault_iff (hb : ∀ p ∈ ps, p.beginsRun = false) (h : play ps s = .next (t, outs)) :
    t.fault = true ↔ s.fault = true ∨ ∃ p ∈ ps, p.command = some .bad := by
  induction ps generalizing s outs with
  | nil =>
    cases h
    simp
  | cons p ps ih =>
    obtain ⟨hp, hps⟩ := List.forall_mem_cons.mp hb
    obtain ⟨u, outs', hu, hrest, -⟩ := play_cons_inv h
    rw [ih hps hrest, cycle_fault_iff hu, List.exists_mem_cons_iff, hp]
    simp [or_assoc]

/-- Over cycles that begin no run and leave it good, the registers hold the run with the data bits of the cycles and the
symbols sampled added. -/
theorem play_keeps_tracks {v : RunView} (hs : s.Tracks v) (hb : ∀ p ∈ ps, p.beginsRun = false)
    (h : play ps s = .next (t, outs)) (ht : t.fault = false) :
    t.Tracks ⟨v.bits ++ ps.filterMap PortIn.dataBit, v.out ++ sampled outs⟩ := by
  induction ps generalizing s outs v with
  | nil =>
    cases h
    simpa using hs
  | cons p ps ih =>
    have hgood : s.fault = false := by
      rw [← Bool.not_eq_true, play_fault_iff hb h] at ht
      simpa using (not_or.mp ht).1
    obtain ⟨hp, hps⟩ := List.forall_mem_cons.mp hb
    obtain ⟨u, outs', hu, hrest, rfl⟩ := play_cons_inv h
    have hu' : u.Tracks ⟨v.bits ++ p.dataBit.toList, v.out ++ u.output.toList⟩ := by
      simpa [RunView.after, hp, hgood] using cycle_keeps_tracks hs hu
    have hbits : (p :: ps).filterMap PortIn.dataBit = p.dataBit.toList ++ ps.filterMap PortIn.dataBit := by
      cases hd : p.dataBit <;> simp [hd]
    simpa [hbits, sampled_cons] using ih hu' hps hrest

end Run

theorem charCommand_ne_start (c : Char) : charCommand c ≠ .start := by
  unfold charCommand
  split_ifs <;> simp

/-- A string is binary when none of its characters is mapped to BAD (R112). -/
theorem isBinary_iff_no_bad (text : List Char) : isBinary text = true ↔ .bad ∉ text.map charCommand := by
  have hchar (c : Char) : isBinaryChar c = true ↔ charCommand c ≠ .bad := by
    unfold charCommand
    split_ifs <;> simp_all [isBinaryChar]
  simp only [isBinary, List.all_eq_true, hchar, List.mem_map, not_exists, not_and]

/-- The data bits of a binary string's commands make up the string. -/
theorem map_levelChar_dataBits {text : List Char} (hb : isBinary text = true) :
    ((text.map charCommand).filterMap dataBit).map levelChar = text := by
  induction text with
  | nil => rfl
  | cons c text ih =>
    obtain ⟨hc, htext⟩ : isBinaryChar c = true ∧ isBinary text = true := by simpa [isBinary] using hb
    obtain rfl | rfl := (isBinaryChar_iff c).mp hc
    · exact congrArg ('0' :: ·) (ih htext)
    · exact congrArg ('1' :: ·) (ih htext)

/-- The data bits of cycles are those of their commands. -/
theorem filterMap_dataBit (ps : List PortIn) :
    ps.filterMap PortIn.dataBit = (ps.filterMap PortIn.command).filterMap dataBit := by
  rw [List.filterMap_filterMap]
  rfl

theorem Presents.not_beginsRun {ps : List PortIn} {text : List Char} (h : Presents ps (text.map charCommand)) :
    ∀ p ∈ ps, p.beginsRun = false := by
  intro p hp
  have hstart : p.command ≠ some .start := by
    intro hc
    have hmem : .start ∈ text.map charCommand := h.2 ▸ List.mem_filterMap.mpr ⟨p, hp, hc⟩
    obtain ⟨c, -, hc⟩ := List.mem_map.mp hmem
    exact charCommand_ne_start c hc
  simp [PortIn.beginsRun, h.1 p hp, hstart]

/-- From the beginning of a run, the cycles that present a string's characters have the reference function's result. -/
theorem readResult_of_presents {ps : List PortIn} {text : List Char} {s t : State} {outs : List PortOut}
    (hp : Presents ps (text.map charCommand)) (h : play ps (beginRun s) = .next (t, outs)) :
    readResult t.ports.err (sampled outs) = encodeCall text := by
  have hfault : t.fault = true ↔ .bad ∈ text.map charCommand := by
    rw [play_fault_iff hp.not_beginsRun h, ← hp.2, List.mem_filterMap]
    simp
  rw [readResult_ports]
  cases hb : isBinary text with
  | true =>
    have hgood : t.fault = false := by rwa [← Bool.not_eq_true, hfault, ← isBinary_iff_no_bad]
    have htracks := play_keeps_tracks (tracks_beginRun s) hp.not_beginsRun h hgood
    have hencoded := htracks.encoded
    rw [filterMap_dataBit, hp.2] at hencoded
    simp only [RunView.empty, List.nil_append, map_levelChar_dataBits hb] at hencoded
    rw [if_pos ((fault_eq_false t).mp hgood), hencoded]
  | false =>
    have hbad : .bad ∈ text.map charCommand := by
      by_contra hnone
      rw [← isBinary_iff_no_bad, hb] at hnone
      cases hnone
    rw [if_neg ((fault_eq_true t).mp (hfault.mpr hbad))]
    exact (encodeCallFrom_not_binary hb).symm

/-! Calls one after the other (R110, R113) -/

theorem commandInput_command (i : Instr) : (commandInput i).command = some i := by
  cases i <;> rfl

/-- Commands presented without idle cycles are presented. -/
theorem presents_map_commandInput (cmds : List Instr) : Presents (cmds.map commandInput) cmds := by
  refine ⟨fun p hp => ?_, ?_⟩
  · obtain ⟨i, -, rfl⟩ := List.mem_map.mp hp
    rfl
  · rw [List.filterMap_map, show PortIn.command ∘ commandInput = some from funext commandInput_command, List.filterMap_some]

/-- Cycles that begin no run add what they show to the run in progress, whatever cycles follow. -/
theorem runResults_append {ps : List PortIn} {s t : State} {outs : List PortOut} (hb : ∀ p ∈ ps, p.beginsRun = false)
    (h : play ps s = .next (t, outs)) (qs : List PortIn) (out : List Sym) :
    runResults (ps ++ qs) s out = runResults qs t (out ++ sampled outs) := by
  induction ps generalizing s outs out with
  | nil =>
    cases h
    rw [sampled_nil, List.append_nil, List.nil_append]
  | cons p ps ih =>
    obtain ⟨hp, hps⟩ := List.forall_mem_cons.mp hb
    obtain ⟨u, outs', hu, hrest, rfl⟩ := play_cons_inv h
    rw [List.cons_append, runResults_cons_of_not_beginsRun hp hu, ih hps hrest, sampled_cons, List.append_assoc]

/-- A call reads off the result of the run in progress, and its own result is read off by what follows it. -/
theorem runResults_callInputs_append (text : List Char) (s : State) :
    ∃ t syms, readResult t.ports.err syms = encodeCall text ∧
      ∀ qs rs out, runResults qs t syms = .next rs →
        runResults (callInputs text ++ qs) s out = .next (readResult s.ports.err out :: rs) := by
  have hbody := presents_map_commandInput (text.map charCommand)
  obtain ⟨t, outs, ht⟩ := play_total ((text.map charCommand).map commandInput) (beginRun s)
  refine ⟨t, sampled outs, readResult_of_presents hbody ht, fun qs rs out hrs => ?_⟩
  exact runResults_cons_of_beginsRun rfl ((runResults_append hbody.not_beginsRun ht qs []).trans hrs) out

/-! The obligations -/

/-- Settles O36: each step performs the first listed cycle, and no cycle touches the list. -/
theorem stepsPlayListedInputs : Obligations.StepsPlayListedInputs := by
  intro ps s
  obtain ⟨t, outs, h⟩ := play_total ps s
  have hinputs : t.inputs = s.inputs :=
    play_keeps (P := fun u => u.inputs = s.inputs) (fun hs hc => (cycle_inputs hc).trans hs) rfl h
  refine ⟨t, outs, h, hinputs, (run_of_play h s.inputs).trans ?_⟩
  rw [← hinputs]

/-- Settles O40: the idle cycles only clear `sym_valid_q`, which no cycle reads. -/
theorem idleCyclesDoNotMatter : Obligations.IdleCyclesDoNotMatter := play_filter_presenting

/-- Settles O41: over such cycles the symbol register is never written. -/
theorem symbolHeldUntilNext : Obligations.SymbolHeldUntilNext := fun _ _ h => play_holds_sym h

/-- Settles O26: at position 0 the run has written neither register, so the two states agree on it. -/
theorem freshRunIgnoresSymAndHist : Obligations.FreshRunIgnoresSymAndHist := by
  intro s x h ps hc
  have hagree : AgreeOnRun s { s with symQ := x, histQ := h } :=
    ⟨rfl, rfl, fun hc' => absurd hc hc', fun k hk => by simp [hc] at hk⟩
  exact play_of_agreeOnRun hagree ps

/-- Settles O37: the cycles before START show no symbol, START begins the run, and the rest presents the characters. -/
theorem hardwareMatchesReference : Obligations.HardwareMatchesReference := by
  intro text ps s hp
  obtain ⟨hrst, hcmds⟩ := hp
  obtain ⟨pre, p, post, rfl, hpre, hstart, hpost⟩ := List.filterMap_eq_cons_iff.mp hcmds
  have hquiet : ∀ q ∈ pre, q.beginsRun = false ∧ (q.dataBit = none ∨ s.errQ ≠ .none) := fun q hq => by
    simp [PortIn.beginsRun, PortIn.dataBit, hpre q hq, hrst q (List.mem_append_left _ hq)]
  obtain ⟨u, outs, hu, -, houts⟩ := play_holds_sym hquiet
  obtain ⟨t, outs', ht⟩ := play_total post (beginRun u)
  have hbody : Presents post (text.map charCommand) :=
    ⟨fun q hq => hrst q (List.mem_append_right _ (List.mem_cons_of_mem _ hq)), hpost⟩
  refine ⟨t, _, play_append hu (play_cons_beginsRun ((beginsRun_iff p).mpr (.inr hstart)) ht), ?_⟩
  rw [sampled_append, sampled_eq_nil fun o ho => (houts o ho).2, sampled_reset_cons, List.nil_append,
    readResult_of_presents hbody ht]

/-- Settles O38, by induction on the calls: each begins a run of its own, in whatever state the calls before it end. -/
theorem callsInSequenceAreIndependent : Obligations.CallsInSequenceAreIndependent := by
  intro texts
  induction texts with
  | nil => exact fun _ _ => rfl
  | cons text texts ih =>
    intro s out
    obtain ⟨t, syms, hresult, hcall⟩ := runResults_callInputs_append text s
    rw [List.flatMap_cons, hcall _ _ out (ih t syms), hresult, List.map_cons]

end Sys2Proof.Machine
end

section
/-! PROOFS. What a call's output says of its bits: runs of ones, prefixes, level changes, stretches of equal levels, and the
lookback's first position. -/

namespace Sys2Proof.Machine

/-! Rows of the tables (R72, R73) -/

theorem nsymOne_ne (x : Sym) : nsymOne x ≠ x := by
  revert x; decide

theorem nsymZero_false_ne (x : Sym) : nsymZero x false ≠ x := by
  revert x; decide

/-- A bit 1 repeats the previous second level and then inverts it (R72). -/
theorem nsymOne_levels (x : Sym) :
    (nsymOne x).getLsbD 1 = x.getLsbD 0 ∧ (nsymOne x).getLsbD 0 = !x.getLsbD 0 := by
  revert x; decide

/-- A bit 0 without lookback holds the inverse of the previous first level (R73). -/
theorem nsymZero_false_levels (x : Sym) :
    (nsymZero x false).getLsbD 1 = (!x.getLsbD 1) ∧ (nsymZero x false).getLsbD 0 = !x.getLsbD 1 := by
  revert x; decide

/-- After a symbol of a bit 1 the bit-1 table inverts both levels. -/
theorem nsymOne_nsymOne (x : Sym) : nsymOne (nsymOne x) = ~~~(nsymOne x) := nsymOne_eq_not (nsymOne_values x)

/-- The lookback is read only after a bit 1. -/
theorem lookbackAt_eq_false {m : Nat} {text : List Char} {i : Nat} (h : bitAt text (i - 1) = false) :
    lookbackAt m text i = false := by
  simp only [bitAt] at h
  simp [lookbackAt, h]

theorem pos_of_lookbackAt {m : Nat} {text : List Char} {i : Nat} (h : lookbackAt m text i = true) : m ≤ i := by
  by_contra hlt
  simp [lookbackAt_of_lt (not_le.mp hlt)] at h

section Call
variable {text : List Char} {out : List Sym} {i : Nat}

/-! The symbol at a position, by its bit (R71 to R73) -/

/-- The symbol of a bit 0 is flat. -/
theorem symAt_of_not_bit (h : encodeCall text = .ok out) (hi : i < text.length) (hb : bitAt text i = false) :
    symAt out i = 0b00#2 ∨ symAt out i = 0b11#2 := by
  by_cases h0 : i = 0
  · subst h0
    rw [encodeCall_symAt_zero h hi, hb]
    exact .inl rfl
  · rw [encodeCall_symAt_of_not_bit h hi h0 hb]
    exact nsymZero_values _ _

/-- The symbol of a bit 1 after position 0 has a level change inside it. -/
theorem symAt_of_bit (h : encodeCall text = .ok out) (hi : i < text.length) (h0 : i ≠ 0) (hb : bitAt text i = true) :
    symAt out i = 0b01#2 ∨ symAt out i = 0b10#2 := by
  rw [encodeCall_symAt_of_bit h hi h0 hb]
  exact nsymOne_values _

/-! Repeated symbols (R123) -/

/-- Each symbol differs from the one before: under the lookback, where 11 follows, the one before is a 1's. -/
theorem symAt_ne_pred (h : encodeCall text = .ok out) (h0 : i ≠ 0) (hi : i < text.length) :
    symAt out i ≠ symAt out (i - 1) := by
  cases hb : bitAt text i with
  | true =>
    rw [encodeCall_symAt_of_bit h hi h0 hb]
    exact nsymOne_ne _
  | false =>
    rw [encodeCall_symAt_of_not_bit h hi h0 hb]
    cases hl : lookbackAt 4 text i with
    | false => exact nsymZero_false_ne _
    | true =>
      obtain ⟨h4, hprev, -, -⟩ := (lookbackAt_iff (encodeCall_isBinary h) hi).mp hl
      obtain hx | hx := symAt_of_bit h (i := i - 1) (by omega) (by omega) hprev <;> rw [hx] <;> decide

/-! Runs of ones (R119) -/

/-- From position `p` after 0 on, the symbols of a run of 1 bits alternate between the bit-1 table's first one and its
inverse. -/
theorem symAt_run_of_ones (h : encodeCall text = .ok out) {p k : Nat} (hp : p ≠ 0) (hk : p + k < text.length)
    (hones : ∀ j ≤ k, bitAt text (p + j) = true) :
    symAt out (p + k) = if k % 2 = 0 then nsymOne (symAt out (p - 1)) else ~~~(nsymOne (symAt out (p - 1))) := by
  induction k with
  | zero => exact encodeCall_symAt_of_bit h hk hp (hones 0 le_rfl)
  | succ k ih =>
    have hprev := ih (by omega) fun j hj => hones j (by omega)
    rw [encodeCall_symAt_of_bit h hk (by omega) (hones (k + 1) le_rfl), show p + (k + 1) - 1 = p + k by omega, hprev]
    by_cases heven : k % 2 = 0
    · rw [if_pos heven, if_neg (by omega), nsymOne_nsymOne]
    · rw [if_neg heven, if_pos (by omega)]
      obtain hx | hx := nsymOne_values (symAt out (p - 1)) <;> rw [hx] <;> rfl

/-! Levels and their changes (R118, R125) -/

/-- The two levels of the symbol at a position. -/
theorem levels_getD (h : encodeCall text = .ok out) (hi : i < text.length) :
    (levels out).getD (2 * i) false = (symAt out i).getLsbD 1 ∧
    (levels out).getD (2 * i + 1) false = (symAt out i).getLsbD 0 := by
  have hsym : out[i]? = some (symAt out i) := getElem?_eq_some_symAt (by rwa [encodeCall_length h])
  obtain ⟨h1, h0⟩ := getElem?_flatMap_pair (fun x : Sym => x.getLsbD 1) (fun x => x.getLsbD 0) hsym
  rw [List.getD_eq_getElem?_getD, List.getD_eq_getElem?_getD, levels, h1, h0]
  exact ⟨rfl, rfl⟩

theorem levels_length (h : encodeCall text = .ok out) : (levels out).length = 2 * text.length :=
  (length_flatMap_pair _ _ out).trans (congrArg (2 * ·) (encodeCall_length h))

/-- The level before a symbol is the second level of the symbol before it. -/
theorem levels_getD_pred (h : encodeCall text = .ok out) (h0 : i ≠ 0) (hi : i < text.length) :
    (levels out).getD (2 * i - 1) false = (symAt out (i - 1)).getLsbD 0 := by
  rw [← (levels_getD h (i := i - 1) (by omega)).2, show 2 * (i - 1) + 1 = 2 * i - 1 by omega]

/-- After position 0 a bit is the xor of its symbol's levels (R124). -/
theorem bitAt_eq_xor (h : encodeCall text = .ok out) (h0 : i ≠ 0) (hi : i < text.length) :
    bitAt text i = ((symAt out i).getLsbD 1 ^^ (symAt out i).getLsbD 0) := by
  cases hb : bitAt text i with
  | true => obtain hx | hx := symAt_of_bit h hi h0 hb <;> rw [hx] <;> rfl
  | false => obtain hx | hx := symAt_of_not_bit h hi hb <;> rw [hx] <;> rfl

/-- At position 0 the bit is both levels (R124). -/
theorem symAt_zero_levels (h : encodeCall text = .ok out) (hne : 0 < text.length) :
    (symAt out 0).getLsbD 1 = bitAt text 0 ∧ (symAt out 0).getLsbD 0 = bitAt text 0 := by
  rw [encodeCall_symAt_zero h hne]
  cases bitAt text 0 <;> exact ⟨rfl, rfl⟩

/-- The level changes inside a symbol exactly for a 1 after position 0. -/
theorem level_changes_inside_iff (h : encodeCall text = .ok out) (hi : i < text.length) :
    (levels out).getD (2 * i) false ≠ (levels out).getD (2 * i + 1) false ↔ 0 < i ∧ bitAt text i = true := by
  obtain ⟨h1, h2⟩ := levels_getD h hi
  rw [h1, h2]
  by_cases h0 : i = 0
  · subst h0
    obtain ⟨hl1, hl0⟩ := symAt_zero_levels h hi
    simp only [hl1, hl0, ne_eq, not_true_eq_false, lt_irrefl, false_and]
  · rw [bitAt_eq_xor h h0 hi, bne_iff_ne]
    exact (and_iff_right (Nat.pos_of_ne_zero h0)).symm

/-- The level changes before a symbol exactly for a 0 after a 0, at position 1, or at the lookback after 10. -/
theorem level_changes_before_iff (h : encodeCall text = .ok out) (h0 : i ≠ 0) (hi : i < text.length) :
    (levels out).getD (2 * i - 1) false ≠ (levels out).getD (2 * i) false ↔
      bitAt text i = false ∧
        (bitAt text (i - 1) = false ∨ i = 1 ∨ lookbackAt 4 text i = true ∧ symAt out (i - 1) = 0b10#2) := by
  rw [levels_getD_pred h h0 hi, (levels_getD h hi).1]
  cases hb : bitAt text i with
  | true =>
    rw [encodeCall_symAt_of_bit h hi h0 hb, (nsymOne_levels _).1]
    simp
  | false =>
    rw [encodeCall_symAt_of_not_bit h hi h0 hb]
    cases hprev : bitAt text (i - 1) with
    | false =>
      rw [lookbackAt_eq_false hprev, (nsymZero_false_levels _).1]
      obtain hx | hx := symAt_of_not_bit h (i := i - 1) (by omega) hprev <;> simp [hx]
    | true =>
      by_cases h1 : i = 1
      · subst h1
        rw [lookbackAt_of_lt (by decide), encodeCall_symAt_zero h (by omega), show bitAt text 0 = true from hprev]
        decide
      · obtain hx | hx := symAt_of_bit h (i := i - 1) (by omega) (by omega) hprev <;> rw [hx] <;>
          cases lookbackAt 4 text i <;> simp [h1, nsymZero]

/-! Stretches of equal levels (R126) -/

/-- The four levels of two successive symbols are not all the same: both symbols would be flat, and so the same. -/
theorem levels_not_constant_over_two_symbols (h : encodeCall text = .ok out) (hi : i + 1 < text.length) (l : Bool) :
    ¬ ∀ j, 2 * i ≤ j → j < 2 * i + 4 → (levels out).getD j false = l := by
  intro hconst
  obtain ⟨h1, h0⟩ := levels_getD h (i := i) (by omega)
  obtain ⟨h1', h0'⟩ := levels_getD h hi
  rw [hconst _ (by omega) (by omega)] at h1 h0 h1' h0'
  refine symAt_ne_pred h (Nat.succ_ne_zero i) hi (BitVec.eq_of_getLsbD_eq fun k hk => ?_)
  rw [Nat.succ_eq_add_one, Nat.add_sub_cancel]
  obtain rfl | rfl : k = 0 ∨ k = 1 := by omega
  · rw [← h0, ← h0']
  · rw [← h1, ← h1']

/-- No interior stretch is longer than 4: a longer one would contain two whole symbols. -/
theorem interiorStretch_le_four (h : encodeCall text = .ok out) {a b : Nat} (hs : InteriorStretch (levels out) a b) :
    b ≤ a + 4 := by
  obtain ⟨-, -, hb, hconst, -, -⟩ := hs
  rw [levels_length h] at hb
  by_contra hlong
  refine levels_not_constant_over_two_symbols h (i := (a + 1) / 2) (by omega) ((levels out).getD a false) fun j hj hj' => ?_
  exact hconst j (by omega) (by omega)

/-- A level different from both its neighbours is an interior stretch of 1. -/
theorem interiorStretch_one_iff (l : List Bool) (a : Nat) :
    InteriorStretch l a (a + 1) ↔
      0 < a ∧ a + 1 < l.length ∧ l.getD (a - 1) false ≠ l.getD a false ∧ l.getD a false ≠ l.getD (a + 1) false := by
  refine ⟨fun ⟨ha, _, hlen, _, hprev, hnext⟩ => ⟨ha, hlen, hprev, hnext.symm⟩,
    fun ⟨ha, hlen, hprev, hnext⟩ => ⟨ha, by omega, hlen, fun j hj hj' => ?_, hprev, hnext.symm⟩⟩
  rw [show j = a by omega]

/-- The interior stretches of 1 stand just before a 0 where the lookback changes the result. -/
theorem interiorStretch_one_iff_lookback (h : encodeCall text = .ok out) (a : Nat) :
    InteriorStretch (levels out) a (a + 1) ↔
      ∃ i, 0 < i ∧ a = 2 * i - 1 ∧ i < text.length ∧ bitAt text i = false ∧ lookbackAt 4 text i = true ∧
        symAt out (i - 1) = 0b10#2 := by
  rw [interiorStretch_one_iff, levels_length h]
  constructor
  · rintro ⟨ha, hlen, hprev, hnext⟩
    obtain ⟨i, rfl | rfl⟩ : ∃ i, a = 2 * i ∨ a = 2 * (i + 1) - 1 := ⟨a / 2, by omega⟩
    · have hone := ((level_changes_inside_iff h (by omega)).mp hnext).2
      have hzero := ((level_changes_before_iff h (by omega) (by omega)).mp hprev).1
      simp [hone] at hzero
    · rw [show 2 * (i + 1) - 1 - 1 = 2 * i by omega, show 2 * (i + 1) - 1 = 2 * i + 1 by omega] at hprev
      rw [show 2 * (i + 1) - 1 + 1 = 2 * (i + 1) by omega] at hnext
      obtain ⟨hpos, hone⟩ := (level_changes_inside_iff h (by omega)).mp hprev
      obtain ⟨hzero, hbefore⟩ := (level_changes_before_iff h (by omega) (by omega)).mp hnext
      rw [Nat.add_sub_cancel] at hbefore
      obtain hzero' | h1 | ⟨hl, hsym⟩ := hbefore
      · simp [hone] at hzero'
      · omega
      · exact ⟨i + 1, by omega, rfl, by omega, hzero, hl, hsym⟩
  · rintro ⟨i, -, rfl, hi, hzero, hl, hsym⟩
    obtain ⟨h4, hone, -, -⟩ := (lookbackAt_iff (encodeCall_isBinary h) hi).mp hl
    have hinside := (level_changes_inside_iff h (i := i - 1) (by omega)).mpr ⟨by omega, hone⟩
    have hbefore := (level_changes_before_iff h (by omega) hi).mpr ⟨hzero, .inr (.inr ⟨hl, hsym⟩)⟩
    rw [show 2 * (i - 1) = 2 * i - 1 - 1 by omega, show 2 * i - 1 - 1 + 1 = 2 * i - 1 by omega] at hinside
    rw [show 2 * i - 1 + 1 = 2 * i by omega]
    exact ⟨by omega, by omega, hinside, hbefore⟩

end Call

/-! Prefixes (R122) -/

theorem isBinary_append (text more : List Char) : isBinary (text ++ more) = (isBinary text && isBinary more) :=
  List.all_append

/-- More binary characters only add symbols. -/
theorem encodeCall_append {text : List Char} {out : List Sym} (h : encodeCall text = .ok out) {more : List Char}
    (hb : isBinary more = true) : ∃ c, encodeCall (text ++ more) = .ok (out ++ c) := by
  induction more using List.reverseRecOn with
  | nil => exact ⟨[], by simpa using h⟩
  | append_singleton more c ih =>
    obtain ⟨hmore, hc⟩ : isBinary more = true ∧ isBinaryChar c = true := by simpa [isBinary] using hb
    obtain ⟨syms, hsyms⟩ := ih hmore
    obtain ⟨o, ho⟩ := refSymbol_some 4 (text ++ more ++ [c]) (text ++ more).length (out ++ syms)
    exact ⟨syms ++ [o], by rw [← List.append_assoc, ← List.append_assoc, encodeCall_concat hsyms hc ho]⟩

theorem encodeCall_binary {text : List Char} (hb : isBinary text = true) : ∃ out, encodeCall text = .ok out := by
  obtain ⟨out, hout, -⟩ := refOutput_some 4 text text.length
  exact ⟨out, encodeCallFrom_binary hb hout⟩

/-! The lookback's first position (R81) -/

/-- Away from position 3 the lookbacks from 3 and from 4 are the same. -/
theorem lookbackAt_three_eq_four {i : Nat} (hi : i ≠ 3) (text : List Char) :
    lookbackAt 3 text i = lookbackAt 4 text i := by
  have hpos : 3 ≤ i ↔ 4 ≤ i := by omega
  simp only [lookbackAt, hpos]

/-- After the bits 1, 0, 1 at positions 0 to 2 the symbol at position 2 is 01. -/
theorem symAt_two_of_lookback {m : Nat} {text : List Char} {out : List Sym} (hm : 3 ≤ m)
    (h : refOutput m text 3 = some out) (hl : lookbackAt 3 text 3 = true) : symAt out 2 = 0b01#2 := by
  obtain ⟨⟨hb2, hb1⟩, hb0⟩ : (text[2]? = some '1' ∧ text[1]? = some '0') ∧ text[0]? = some '1' := by
    simpa [lookbackAt] using hl
  have h0 : symAt out 0 = 0b11#2 := by
    have hsym := refOutput_symAt h (i := 0) (by decide)
    rw [refSymbol_zero, bitAt_eq_of_getElem? hb0] at hsym
    exact (Option.some.inj hsym).symm
  have h1 : symAt out 1 = 0b00#2 := by
    have hsym := refOutput_symAt h (i := 1) (by decide)
    rw [refSymbol_of_not_bit one_ne_zero (bitAt_eq_of_getElem? hb1), lookbackAt_of_lt (by omega),
      Nat.sub_self, h0] at hsym
    exact (Option.some.inj hsym).symm
  have hsym := refOutput_symAt h (i := 2) (by decide)
  rw [refSymbol_of_bit two_ne_zero (bitAt_eq_of_getElem? hb2), show 2 - 1 = 1 from rfl, h1] at hsym
  exact (Option.some.inj hsym).symm

/-- The loops with lookback from position 3 and from 4 give the same symbols: at position 3, where only the first looks
back, the symbol before is 01, after which a 0 gives 11 in any case. -/
theorem refOutput_three_eq_four (text : List Char) (n : Nat) : refOutput 3 text n = refOutput 4 text n := by
  induction n with
  | zero => rfl
  | succ n ih =>
    obtain ⟨out, hout, -⟩ := refOutput_some 4 text n
    have hsym : refSymbol 3 text n out = refSymbol 4 text n out := by
      by_cases h3 : n = 3
      · subst h3
        cases hl : lookbackAt 3 text 3 with
        | true =>
          have hprev : symAt out (3 - 1) = 0b01#2 := symAt_two_of_lookback (by decide) hout hl
          simp [refSymbol, hprev]
        | false => simp only [refSymbol, hl, lookbackAt_of_lt (show 3 < 4 by decide)]
      · simp only [refSymbol, lookbackAt_three_eq_four h3]
    simp only [refOutput, ih, hout, hsym]

/-! The obligations -/

/-- Settles O46: from position 0, the symbol 11 and then the run from position 1; from a later one, the run after the flat
symbol of a 0. -/
theorem runsOfOnesAlternate : Obligations.RunsOfOnesAlternate := by
  intro text out p k h hk hones hstart
  refine ⟨fun hp => ?_, fun hp => ?_⟩
  · subst hp
    have hfirst : symAt out 0 = 0b11#2 := by
      rw [encodeCall_symAt_zero h (by omega), hones 0 (Nat.zero_le k)]
      rfl
    cases k with
    | zero => exact hfirst
    | succ k =>
      have hrun := symAt_run_of_ones h (p := 1) (k := k) one_ne_zero (by omega)
        fun j hj => by simpa [Nat.add_comm] using hones (j + 1) (by omega)
      rw [Nat.sub_self, hfirst, Nat.add_comm] at hrun
      rw [hrun, if_neg (Nat.succ_ne_zero k)]
      by_cases heven : k % 2 = 0
      · rw [if_pos heven, if_pos (by omega)]
        rfl
      · rw [if_neg heven, if_neg (by omega)]
        rfl
  · have hzero : bitAt text (p - 1) = false := hstart.resolve_left (by omega)
    rw [symAt_run_of_ones h (by omega) hk hones]
    exact (symAt_of_not_bit h (by omega) hzero).imp (fun hx => by rw [hx]; exact ⟨rfl, rfl⟩)
      fun hx => by rw [hx]; exact ⟨rfl, rfl⟩

/-- Settles O48: one symbol is added for each further character. -/
theorem prefixProperty : Obligations.PrefixProperty := by
  intro text more hb
  obtain ⟨htext, hmore⟩ : isBinary text = true ∧ isBinary more = true := by simpa [isBinary_append] using hb
  obtain ⟨out, hout⟩ := encodeCall_binary htext
  obtain ⟨c, hc⟩ := encodeCall_append hout hmore
  exact ⟨out, c, hout, hc⟩

/-- Settles O49, by the bit and, for a 0, by the lookback. -/
theorem noRepeatedSymbol : Obligations.NoRepeatedSymbol :=
  fun _ _ _ h hpos hi => symAt_ne_pred h hpos.ne' hi

/-- Settles O50: after position 0 the symbol of a 1 has a level change inside and that of a 0 has none. -/
theorem bitsReadBack : Obligations.BitsReadBack := by
  refine fun text out i h hi => ⟨fun hpos => bitAt_eq_xor h hpos.ne' hi, fun hzero => ?_⟩
  obtain ⟨h1, h0⟩ := symAt_zero_levels h (by omega)
  exact ⟨h1.symm, h0.symm⟩

/-- Settles O51: the change inside a symbol by its bit, the one before it by the bits around it. -/
theorem levelTransitions : Obligations.LevelTransitions :=
  fun _ _ _ h hi => ⟨level_changes_inside_iff h hi, fun hpos => level_changes_before_iff h hpos.ne' hi⟩

/-- Settles O52: two whole symbols are never level, and a stretch of 1 needs a change inside a symbol and one after it. -/
theorem intervalsBetweenChanges : Obligations.IntervalsBetweenChanges :=
  fun _ _ h => ⟨fun _ _ hs@⟨_, hab, _⟩ => ⟨hab, interiorStretch_le_four h hs⟩, interiorStretch_one_iff_lookback h⟩

/-- Settles O53: the two loops agree on every string, and the example is evaluated. -/
theorem lookbackBoundary : Obligations.LookbackBoundary := by
  refine ⟨fun text => ?_, by decide, by decide⟩
  simp only [encodeCallFrom, refOutput_three_eq_four]

end Sys2Proof.Machine
end

section
/-! PROOFS. The command words and their byte carrier, the next-symbol rule beside the naive one, what each command leaves
unchanged, and what a step performs. -/

namespace Sys2Proof.Machine

/-! The byte carrier (R52; log entry 3) -/

theorem decode_encode (i : Instr) : decode (encode i) = i := by
  cases i <;> rfl

theorem decodeBytes_encodeByte (i : Instr) : decodeBytes [encodeByte i] = .ok (i, []) := by
  cases i <;> rfl

/-- A byte with a bit set above the command word carries none. -/
theorem decodeBytes_of_high_bit {b : Byte} (h : 4 ≤ b.toNat) : decodeBytes [b] = .error .highBitsSet := by
  simp [decodeBytes, isCommandByte, Nat.not_lt.mpr h]

theorem decodeStream_of_error {b : Byte} {e : DecodeError} (h : decodeBytes [b] = .error e) (rest : List Byte) :
    decodeStream (b :: rest) = .error e := by
  simp [decodeStream, h]

/-- A command's byte before a sequence puts the command before what the sequence decodes to. -/
theorem decodeStream_encodeByte_cons (i : Instr) (bytes : List Byte) :
    decodeStream (encodeByte i :: bytes) = (decodeStream bytes).map (i :: ·) := by
  rw [decodeStream, decodeBytes_encodeByte]
  cases decodeStream bytes <;> rfl

/-- So do the bytes of any list of commands. -/
theorem decodeStream_encodeBytes_append (is : List Instr) (bytes : List Byte) :
    decodeStream (is.map encodeByte ++ bytes) = (decodeStream bytes).map (is ++ ·) := by
  induction is with
  | nil => cases h : decodeStream bytes <;> simp [h, Except.map]
  | cons i is ih =>
    rw [List.map_cons, List.cons_append, decodeStream_encodeByte_cons, ih]
    cases decodeStream bytes <;> rfl

/-! The next symbol beside the naive rule (R79) -/

theorem naiveNsym_false {c : Pos} (hc : c ≠ 0) (x : Sym) : naiveNsym x c false = nsymZero x false := by
  simp [naiveNsym, hc]

/-- Under the lookback a bit 0 gives 11, whatever the previous symbol (R73). -/
theorem nsym_false_of_lb {h : Hist} {c : Pos} (hl : lb h c = true) (x : Sym) : nsym x h c false = 0b11#2 := by
  have hc : c ≠ 0 := by
    rw [((lb_iff_register h c).mp hl).1]
    decide
  rw [nsym_false hc, hl, nsymZero_lookback]

/-! What a data command leaves unchanged (R90) -/

theorem dataStep_frame {b : Bool} {s t : State} (h : dataStep b s = .next t) :
    t.errQ = s.errQ ∧ t.inputs = s.inputs ∧
      (s.errQ ≠ .none → t.symQ = s.symQ ∧ t.histQ = s.histQ ∧ t.cntQ = s.cntQ) := by
  obtain ⟨-, rfl⟩ | ⟨he, rfl⟩ := dataStep_cases h
  · exact ⟨rfl, rfl, fun _ => ⟨rfl, rfl, rfl⟩⟩
  · exact ⟨rfl, rfl, fun hne => absurd he hne⟩

/-! The obligations -/

/-- Settles O4: the bytes of the commands decode to them, whatever the bytes after them decode to. -/
theorem byteStreamDecodesBack : Obligations.ByteStreamDecodesBack := by
  refine fun is => ⟨?_, fun b rest hb => ?_⟩
  · have h := decodeStream_encodeBytes_append is []
    rw [List.append_nil] at h
    rw [h]
    exact congrArg Except.ok (List.append_nil is)
  · rw [decodeStream_encodeBytes_append, decodeStream_of_error (decodeBytes_of_high_bit hb)]
    rfl

/-- Settles O3: by the four commands, and by the four words. -/
theorem decodeInvertsEncode : Obligations.DecodeInvertsEncode :=
  ⟨fun i _ => decode_encode i, by decide⟩

/-- Settles O7, by whether the lookback holds. -/
theorem bitZeroRule : Obligations.BitZeroRule := by
  refine fun h c hc => ⟨fun x hl => nsym_false_of_lb hl x, fun hl => ?_⟩
  simp only [nsym_false hc, hl]
  exact ⟨rfl, rfl, rfl, rfl⟩

/-- Settles O11: the levels in the rows of the two tables. -/
theorem halfBitFormulas : Obligations.HalfBitFormulas := by
  refine fun x h c hc => ⟨?_, fun hl => ?_, ?_⟩
  · rw [nsym_true hc]
    exact nsymOne_levels x
  · rw [nsym_false hc, hl]
    exact nsymZero_false_levels x
  · rw [nsym_true hc]
    obtain hx | hx := nsymOne_values x <;> rw [hx] <;> decide

/-- Settles O12: only a 0 under the lookback goes by another rule, and there the naive one differs after 10, not after
01. -/
theorem lookbackChangesOneCase : Obligations.LookbackChangesOneCase := by
  intro x h c b hreach
  cases b with
  | true => simp [nsym_true_eq_naiveNsym]
  | false =>
    cases hl : lb h c with
    | false => simp [nsym_of_lb_false hl]
    | true =>
      have hc : c = 4 := ((lb_iff_register h c).mp hl).1
      rw [nsym_false_of_lb hl, naiveNsym_false (by rw [hc]; decide)]
      obtain rfl | rfl := hreach hl <;> decide

/-- Settles O16: D0 and D1 are data steps. -/
theorem dataCommandFrame : Obligations.DataCommandFrame :=
  fun _ _ h => h.elim dataStep_frame dataStep_frame

/-- Settles O17, by the two cases of BAD; no cycle touches the coming inputs. -/
theorem controlCommandFrame : Obligations.ControlCommandFrame := by
  refine fun s t => ⟨fun h => ?_, fun h => ?_, fun v w h => cycle_inputs h⟩
  · obtain ⟨-, rfl⟩ | ⟨he, rfl⟩ := execBad_cases h
    · exact ⟨rfl, rfl, rfl, rfl, fun _ => rfl⟩
    · exact ⟨rfl, rfl, rfl, rfl, fun hne => absurd he hne⟩
  · obtain rfl := Host.Outcome.next.inj ((exec_start s).symm.trans h)
    rfl

/-- Settles O22: the step is the cycle listed first, which presents the word. -/
theorem stepRunsDecodedCommand : Obligations.StepRunsDecodedCommand :=
  fun _ _ _ h => step_of_inputs_cons h

/-- Settles O23: the step is an idle cycle, or the cycle listed first. -/
theorem stepWithoutCommand : Obligations.StepWithoutCommand := by
  refine fun s v w rest => ⟨fun h => ?_, fun h => ?_, fun h => ?_⟩
  · exact (step_of_inputs_nil h).trans (cycle_idle rfl rfl)
  · exact (step_of_inputs_cons h).trans (cycle_idle rfl rfl)
  · exact (step_of_inputs_cons h).trans (cycle_beginsRun (beginsRun_of_rst rfl))

end Sys2Proof.Machine
end

section
/-! PROOFS. Programs of mnemonic lines (R59; log entry 12 for the blanks). -/

namespace Sys2Proof.Machine

/-- The item of a line written by `slotLine`. -/
def slotItem : Option Instr → AsmItem
  | some i => .command i
  | none => .idle

/-- What may follow a mnemonic: nothing, or a comment after a blank. -/
def lineTail : Option (List Char) → List Char
  | some c => ' ' :: ';' :: c
  | none => []

theorem parseLine_slotLine (slot : Option Instr) (comment : Option (List Char)) :
    parseLine (slotLine slot ++ lineTail comment) = .ok (slotItem slot) := by
  cases comment <;> obtain _ | _ | _ | _ | _ := slot <;> rfl

theorem slotItem_expand (slot : Option Instr) : (slotItem slot).expand = .ok [slotInput slot] := by
  cases slot <;> rfl

/-- A line's cycles come before those of the lines after it. -/
theorem assemble_cons {line : List Char} {lines : List (List Char)} {item : AsmItem} {ps rest : List PortIn}
    (hline : parseLine line = .ok item) (hitem : item.expand = .ok ps) (hrest : assemble lines = .ok rest) :
    assemble (line :: lines) = .ok (ps ++ rest) := by
  simp [assemble, hline, hitem, hrest]

theorem assemble_slotLines (prog : List (Option Instr × Option (List Char))) :
    assemble (prog.map fun l => slotLine l.1 ++ lineTail l.2) = .ok (prog.map fun l => slotInput l.1) := by
  induction prog with
  | nil => rfl
  | cons l prog ih => exact assemble_cons (parseLine_slotLine l.1 l.2) (slotItem_expand l.1) ih

/-- Settles O59: each line is its slot's item, which stands for one cycle. -/
theorem mnemonicLinesAssemble : Obligations.MnemonicLinesAssemble := assemble_slotLines

end Sys2Proof.Machine
end
